-- ==== Sys2Proof/Word.lean ====
section
/-! DEFINITION. The block's plain data types: words, bytes, field slots, five-byte sequences and the
four configuration groups (spec 00_scope.md R8, R9, R14). -/

namespace Sys2Proof

/-- A byte of a waveform, of a raw transport buffer or of a hit frame. -/
abbrev Byte := BitVec 8

/-- A command word on `in.word`, and the STATUS register (R27, R70). -/
abbrev Word := BitVec 32

/-- A configuration field's storage slot, `VAL_W = 64` bits (R20). -/
abbrev Slot := BitVec 64

/-- Exactly five bytes, index 0 first: a hit frame (R56) or the read-back header (R143). -/
structure Frame where
  b0 : Byte
  b1 : Byte
  b2 : Byte
  b3 : Byte
  b4 : Byte
deriving DecidableEq, Repr

/-- The frame as a byte sequence, index 0 first (R9). -/
def Frame.toList (f : Frame) : List Byte := [f.b0, f.b1, f.b2, f.b3, f.b4]

/-- The configuration groups, in serialization order (R14). -/
inductive Group where
  | digital
  | bias
  | dacs
  | columns
deriving DecidableEq, Repr

end Sys2Proof
end

