-- ==== Sys2Proof/Syntax.lean ====
section
/-! DEFINITION. The twelve commands of spec/opcode_table.json, one constructor per row. An operand
is what R78 makes of its field: an unsigned integer, or a flag. -/

namespace Sys2Proof

/-- The commands (R79). -/
inductive Instr where
  /-- NOP (R100) -/
  | nop
  /-- FIELD_WR `GRP`, `IDX` (R101) -/
  | fieldWr (g : Group) (i : Nat)
  /-- FIELD_RD `GRP`, `IDX` (R102) -/
  | fieldRd (g : Group) (i : Nat)
  /-- PIXEL_EN `COL`, `ROW` (R103) -/
  | pixelEn (c : Nat) (r : Nat)
  /-- BUILD `M` = `msb_first` (R120) -/
  | build (m : Bool)
  /-- WAVE_WR `K` = `clock_divider`, `L` = `with_load_strobe` (R144) -/
  | waveWr (k : Nat) (l : Bool)
  /-- WAVE_RB `K` (R145) -/
  | waveRb (k : Nat)
  /-- CONFIG_WR `K`, `L`, `M` (R146) -/
  | configWr (k : Nat) (l : Bool) (m : Bool)
  /-- CONFIG_RB `K`, `M` (R147) -/
  | configRb (k : Nat) (m : Bool)
  /-- FRAME `V` = `bit_reverse_each_byte` (R175) -/
  | frame (v : Bool)
  /-- DECODE `PERIOD` = `sample_clock_period_ns` (R194) -/
  | decode (period : Nat)
  /-- READOUT `PERIOD`, `V` (R195) -/
  | readout (period : Nat) (v : Bool)
deriving DecidableEq, Repr

end Sys2Proof
end

