-- ==== Sys2Proof/WellFormed.lean ====
section
/-! DEFINITION. Which commands an encoding can carry: every operand fits its field of formats F, P,
W and D (spec 30_encoding.md R72 to R77). Whether a field, a divider or a period is one the command
accepts is checked when the command runs (R78). -/

namespace Sys2Proof

/-- An operand fits an 8-bit field (`IDX`, `COL`, `ROW`). -/
abbrev Fits8 (n : Nat) : Prop := n < 2 ^ 8

/-- An operand fits a 16-bit field (`K`, `PERIOD`). -/
abbrev Fits16 (n : Nat) : Prop := n < 2 ^ 16

/-- The operands of a command fit the fields of its format. -/
def Instr.wellFormed : Instr → Bool
  | .nop => true
  | .fieldWr _ i => decide (Fits8 i)
  | .fieldRd _ i => decide (Fits8 i)
  | .pixelEn c r => decide (Fits8 c) && decide (Fits8 r)
  | .build _ => true
  | .waveWr k _ => decide (Fits16 k)
  | .waveRb k => decide (Fits16 k)
  | .configWr k _ _ => decide (Fits16 k)
  | .configRb k _ => decide (Fits16 k)
  | .frame _ => true
  | .decode period => decide (Fits16 period)
  | .readout period _ => decide (Fits16 period)

/-- The command is one that some word encodes. -/
abbrev Instr.WellFormed (i : Instr) : Prop := i.wellFormed = true

end Sys2Proof
end

