-- ==== Sys2Proof/Decode.lean ====
section
/-! DEFINITION. The command decoder and the encoder (spec 30_encoding.md R70 to R81). -/

namespace Sys2Proof

/-- `v[hi:lo]` of a command word, as an unsigned integer (R8, R78). -/
def wordBits (w : Word) (hi lo : Nat) : Nat := w.toNat / 2 ^ lo % 2 ^ (hi + 1 - lo)

/-- `v[k]` of a command word, as a flag (R8, R78). -/
def wordFlag (w : Word) (k : Nat) : Bool := w.getLsbD k

/-- The group a 2-bit group number names (R14). -/
def Group.ofNum : Nat → Group
  | 0 => .digital
  | 1 => .bias
  | 2 => .dacs
  | _ => .columns

/-- The number of a group (R14). -/
def Group.num : Group → Nat
  | .digital => 0
  | .bias => 1
  | .dacs => 2
  | .columns => 3

/-- The 2-bit code of a group in the field `GRP` (R72). -/
def Group.code (g : Group) : BitVec 2 := BitVec.ofNat 2 g.num

/-- One row of the opcode map (R79), with its operand assembly (R78). -/
structure OpRow where
  mnemonic : String
  mask : Word
  pattern : Word
  operands : Word → Instr

/-- The opcode map of R79, row by row. -/
def opcodeMap : List OpRow :=
  [ { mnemonic := "NOP", mask := 0xFFFFFFFF#32, pattern := 0x00000000#32
      operands := fun _ => .nop },
    { mnemonic := "FIELD_WR", mask := 0xFFFF00CF#32, pattern := 0x00000001#32
      operands := fun w => .fieldWr (Group.ofNum (wordBits w 5 4)) (wordBits w 15 8) },
    { mnemonic := "FIELD_RD", mask := 0xFFFF00CF#32, pattern := 0x00000002#32
      operands := fun w => .fieldRd (Group.ofNum (wordBits w 5 4)) (wordBits w 15 8) },
    { mnemonic := "PIXEL_EN", mask := 0xFF0000FF#32, pattern := 0x00000003#32
      operands := fun w => .pixelEn (wordBits w 15 8) (wordBits w 23 16) },
    { mnemonic := "BUILD", mask := 0xFFFFFFEF#32, pattern := 0x00000004#32
      operands := fun w => .build (wordFlag w 4) },
    { mnemonic := "WAVE_WR", mask := 0x0000FFDF#32, pattern := 0x00000005#32
      operands := fun w => .waveWr (wordBits w 31 16) (wordFlag w 5) },
    { mnemonic := "WAVE_RB", mask := 0x0000FFFF#32, pattern := 0x00000006#32
      operands := fun w => .waveRb (wordBits w 31 16) },
    { mnemonic := "CONFIG_WR", mask := 0x0000FFCF#32, pattern := 0x00000007#32
      operands := fun w => .configWr (wordBits w 31 16) (wordFlag w 5) (wordFlag w 4) },
    { mnemonic := "CONFIG_RB", mask := 0x0000FFEF#32, pattern := 0x00000008#32
      operands := fun w => .configRb (wordBits w 31 16) (wordFlag w 4) },
    { mnemonic := "FRAME", mask := 0xFFFFFFEF#32, pattern := 0x00000009#32
      operands := fun w => .frame (wordFlag w 4) },
    { mnemonic := "DECODE", mask := 0x0000FFFF#32, pattern := 0x0000000A#32
      operands := fun w => .decode (wordBits w 31 16) },
    { mnemonic := "READOUT", mask := 0x0000FFEF#32, pattern := 0x0000000B#32
      operands := fun w => .readout (wordBits w 31 16) (wordFlag w 4) } ]

/-- A word is the command of a row (R79). -/
def OpRow.accepts (r : OpRow) (w : Word) : Bool := w &&& r.mask == r.pattern

/-- Why a word is `ILLEGAL` (R81): its opcode has no row, or its row requires a 0 where it has a 1. -/
inductive IllegalWord where
  | reservedOpcode
  | reservedBit
deriving DecidableEq, Repr

/-- The decoder, total on every word (R80). -/
def decode (w : Word) : Except IllegalWord Instr :=
  match opcodeMap.find? (·.accepts w) with
  | some r => .ok (r.operands w)
  | none => if 0xC ≤ wordBits w 3 0 then .error .reservedOpcode else .error .reservedBit

/-- Format F (R72). -/
def encodeF (op : BitVec 4) (g : Group) (i : Nat) : Word :=
  0#16 ++ BitVec.ofNat 8 i ++ 0#2 ++ g.code ++ op

/-- Format P (R73). -/
def encodeP (op : BitVec 4) (c r : Nat) : Word :=
  0#8 ++ BitVec.ofNat 8 r ++ BitVec.ofNat 8 c ++ 0#4 ++ op

/-- Formats B and S: one flag in bit 4 (R74, R76). -/
def encodeFlag (op : BitVec 4) (f : Bool) : Word :=
  0#27 ++ BitVec.ofBool f ++ op

/-- Formats W and D: a 16-bit operand and the flags in bits 5 and 4, each 0 where the format gives the
command no such flag (R75, R77). -/
def encodeWide (op : BitVec 4) (n : Nat) (f5 f4 : Bool) : Word :=
  BitVec.ofNat 16 n ++ 0#10 ++ BitVec.ofBool f5 ++ BitVec.ofBool f4 ++ op

/-- The word of a command, from the encoding patterns of R79. -/
def encode : Instr → Word
  | .nop => 0#32
  | .fieldWr g i => encodeF 0x1#4 g i
  | .fieldRd g i => encodeF 0x2#4 g i
  | .pixelEn c r => encodeP 0x3#4 c r
  | .build m => encodeFlag 0x4#4 m
  | .waveWr k l => encodeWide 0x5#4 k l false
  | .waveRb k => encodeWide 0x6#4 k false false
  | .configWr k l m => encodeWide 0x7#4 k l m
  | .configRb k m => encodeWide 0x8#4 k false m
  | .frame v => encodeFlag 0x9#4 v
  | .decode period => encodeWide 0xA#4 period false false
  | .readout period v => encodeWide 0xB#4 period false v

/-- The opcode-table row of a command. -/
def Instr.mnemonic : Instr → String
  | .nop => "NOP"
  | .fieldWr _ _ => "FIELD_WR"
  | .fieldRd _ _ => "FIELD_RD"
  | .pixelEn _ _ => "PIXEL_EN"
  | .build _ => "BUILD"
  | .waveWr _ _ => "WAVE_WR"
  | .waveRb _ => "WAVE_RB"
  | .configWr _ _ _ => "CONFIG_WR"
  | .configRb _ _ => "CONFIG_RB"
  | .frame _ => "FRAME"
  | .decode _ => "DECODE"
  | .readout _ _ => "READOUT"

/-- The command word made of the low `nbits` bits of `w`, the rest 0. A command is one 32-bit word
that arrives whole on `in.word`, so no byte order is involved (R70). -/
def tableWord (nbits w : Nat) : Word := BitVec.ofNat 32 (w % 2 ^ nbits)

/-- What the decoder reads from a word of the opcode table's numbering. -/
def decodeTableWord (nbits w : Nat) : Option Instr :=
  match decode (tableWord nbits w) with
  | .ok i => some i
  | .error _ => none

end Sys2Proof
end

