-- ==== Sys2Proof/Config.lean ====
section
/-! DEFINITION. What an implementation of the block fixes: the OPEN parameters of spec 00_scope.md R6,
their admissible values, and the constants R6 gives. -/

namespace Sys2Proof

/-- The contents of the configuration store: one list of slots per group, field `i` of a group at
list index `i` (R20). -/
structure Store where
  digital : List Slot
  bias : List Slot
  dacs : List Slot
  columns : List Slot
deriving DecidableEq, Repr

/-- The fields of one group, in declaration order (R20). -/
def Store.group (cfg : Store) : Group → List Slot
  | .digital => cfg.digital
  | .bias => cfg.bias
  | .dacs => cfg.dacs
  | .columns => cfg.columns

/-- The width `W_g` of a field of group `g` (R6, R14). -/
def Group.width : Group → Nat
  | .digital => 1
  | .bias => 1
  | .dacs => 6
  | .columns => 38

/-- The parameters that R6 leaves OPEN. They are fixed for one machine; `State` carries them as the
argument R6 asks for, and no step changes them. -/
structure Params where
  /-- `N_DIG` -/
  nDig : Nat
  /-- `N_BIAS` -/
  nBias : Nat
  /-- `N_DAC` -/
  nDac : Nat
  /-- `N_COL` -/
  nCol : Nat
  /-- `N_ROWS` -/
  nRows : Nat
  /-- `MASK_POS`, as the list of the positions of rows `0 .. N_ROWS - 1` -/
  maskPos : List Nat
  /-- `CFG_DEFAULT(g, i)` -/
  cfgDefault : Store
  /-- `SIN` -/
  sin : Byte
  /-- `CLK_A` -/
  clkA : Byte
  /-- `CLK_B` -/
  clkB : Byte
  /-- `LOAD` -/
  load : Byte
  /-- `RB_HEADER` -/
  rbHeader : Frame
  /-- `IDLE_BYTE` -/
  idleByte : Byte
  /-- `TERM_LO` -/
  termLo : Byte
  /-- `TERM_HI` -/
  termHi : Byte
deriving DecidableEq, Repr

/-- The field count `N_g` (R14). -/
def Params.count (p : Params) : Group → Nat
  | .digital => p.nDig
  | .bias => p.nBias
  | .dacs => p.nDac
  | .columns => p.nCol

/-- The number of serialized bits, `NBITS` (R7). -/
def Params.nbits (p : Params) : Nat := p.nDig * 1 + p.nBias * 1 + p.nDac * 6 + p.nCol * 38

/-- The position `MASK_POS(r)` of row `r`'s mask bit (R6). -/
def Params.rowPos (p : Params) (r : Nat) : Nat := p.maskPos.getD r 0

/-- The eight one-hot byte masks (R6). -/
def oneHotBytes : List Byte := [0x01#8, 0x02#8, 0x04#8, 0x08#8, 0x10#8, 0x20#8, 0x40#8, 0x80#8]

/-- Every group of the store has the parameters' number of fields (R20). -/
abbrev Store.Shaped (p : Params) (cfg : Store) : Prop :=
  cfg.digital.length = p.nDig ∧ cfg.bias.length = p.nBias ∧ cfg.dacs.length = p.nDac ∧
    cfg.columns.length = p.nCol

/-- A value fits a field of width `w`, `v < 2^w` (R25). -/
def fitsWidth (w : Nat) (v : Slot) : Bool := decide (v.toNat < 2 ^ w)

/-- Every field of the store is in range, `cfg[g][i] < 2^W_g` (R25). -/
abbrev Store.InRange (cfg : Store) : Prop :=
  cfg.digital.all (fitsWidth Group.digital.width) ∧ cfg.bias.all (fitsWidth Group.bias.width) ∧
    cfg.dacs.all (fitsWidth Group.dacs.width) ∧ cfg.columns.all (fitsWidth Group.columns.width)

/-- The admissible values of the OPEN parameters (R6; 93_implementation_defined.md I1 to I6). -/
abbrev Params.Admissible (p : Params) : Prop :=
  (p.nDig ≤ 256 ∧ p.nBias ≤ 256 ∧ p.nDac ≤ 256 ∧ p.nCol ≤ 256) ∧
    (1 ≤ p.nRows ∧ p.nRows ≤ 38) ∧
    (p.maskPos.length = p.nRows ∧ (∀ k ∈ p.maskPos, k < 38) ∧ p.maskPos.Nodup) ∧
    (p.cfgDefault.Shaped p ∧ p.cfgDefault.InRange) ∧
    (p.sin ∈ oneHotBytes ∧ p.clkA ∈ oneHotBytes ∧ p.clkB ∈ oneHotBytes ∧ p.load ∈ oneHotBytes) ∧
    [p.sin, p.clkA, p.clkB, p.load].Nodup ∧
    p.termLo ≤ p.termHi ∧ (p.idleByte < p.termLo ∨ p.termHi < p.idleByte)

/-- The parameter set TP of 95_test_vectors.md section 0. It is no claim about the hardware
(92_eei_decisions.md D40): it shows that admissible parameters exist, and the tests use it. -/
def Params.tp : Params where
  nDig := 2
  nBias := 1
  nDac := 1
  nCol := 1
  nRows := 35
  maskPos := (List.range 35).map (· + 1)
  cfgDefault := { digital := [0, 0], bias := [0], dacs := [0], columns := [0] }
  sin := 0x04
  clkA := 0x02
  clkB := 0x01
  load := 0x08
  rbHeader := { b0 := 0xA0, b1 := 0xA1, b2 := 0xA2, b3 := 0xA3, b4 := 0xA4 }
  idleByte := 0xBC
  termLo := 0x00
  termHi := 0x07

/-- R6 admits the set TP. -/
theorem Params.tp_admissible : Params.tp.Admissible := by decide +kernel

/-- An implementation: parameters with the proof that R6 admits them. The field defaults only show
that the type is inhabited, which the declaration of `Config.implementation` needs. -/
structure Implementation where
  params : Params := Params.tp
  admissible : params.Admissible := by exact Params.tp_admissible
deriving Inhabited

/-- The implementation at hand: a constant with no body, so nothing can be proved of its parameters
but that R6 admits them (assumption log 1). -/
opaque Config.implementation : Implementation

/-- The parameters of the implementation at hand. -/
def Config.params : Params := Config.implementation.params

end Sys2Proof
end

