-- ==== Sys2Proof/Machine/State.lean ====
section
/-! DEFINITION. The state of the block and its surroundings as plain data: the configuration store
and STATUS (spec 10_state.md R20, R27), the input and output ports of the command interface (R31, R32),
the parameters of the implementation (R6), and what the host does next (R30). -/

namespace Sys2Proof.Machine

/-- The decoded record of one hit (R190). `tot_us` is read from `totNs` as an exact rational by
`HitRecord.totUs`, as R192 allows. -/
structure HitRecord where
  /-- `chip_id` -/
  chipId : BitVec 5
  /-- `payload` -/
  payload : BitVec 3
  /-- `location` -/
  location : BitVec 6
  /-- `is_column` -/
  isColumn : Bool
  /-- `timestamp` -/
  timestamp : BitVec 8
  /-- `tot_msb` -/
  totMsb : BitVec 4
  /-- `tot_lsb` -/
  totLsb : BitVec 8
  /-- `tot_ticks` -/
  totTicks : BitVec 12
  /-- `tot_ns`, an exact natural (R192) -/
  totNs : Nat
  /-- `wf` -/
  wf : Bool
deriving DecidableEq, Repr

/-- The input record the host presents (R32). -/
structure Input where
  /-- `in.word` -/
  word : Word
  /-- `in.din` -/
  din : Slot
  /-- `in.bits` -/
  bits : List Bool
  /-- `in.bytes` -/
  bytes : List Byte
  /-- `in.frames` -/
  frames : List Frame
deriving DecidableEq, Repr

/-- Input ports on which nothing is presented. -/
def Input.idle : Input where
  word := 0
  din := 0
  bits := []
  bytes := []
  frames := []

/-- The response record of a command (R31). -/
structure Response where
  /-- `out.status` -/
  status : Word
  /-- `out.dout` -/
  dout : Slot
  /-- `out.bv` -/
  bv : List Bool
  /-- `out.wave` -/
  wave : List Byte
  /-- `out.explen` -/
  explen : Nat
  /-- `out.frames` -/
  frames : List Frame
  /-- `out.records` -/
  records : List HitRecord
deriving DecidableEq, Repr

/-- A response with every port empty or 0: the value of the ports a command does not set (R31). -/
def Response.empty : Response where
  status := 0
  dout := 0
  bv := []
  wave := []
  explen := 0
  frames := []
  records := []

/-- One thing the host does (R30, R31, R240, R244). -/
inductive HostEvent where
  /-- It presents an input record, holding the response to the previous command. -/
  | command (inp : Input)
  /-- It asserts the reset input between commands. -/
  | reset
  /-- It presents an input record before it holds the response to the previous command. -/
  | commandEarly (inp : Input)
  /-- It asserts the reset input during a command. -/
  | resetDuringCommand
deriving DecidableEq, Repr

/-- Why the machine would stop with a fault. There is no such reason: an error of the block is a result
code in STATUS and the block goes on (60_exceptions.md, R214). Safe. -/
inductive Fault where
deriving DecidableEq, Repr

/-- Why the model gives a run no meaning. -/
inductive Refusal where
  /-- An instruction of the opcode table without a meaning. No arm of `exec` answers it. Safe. -/
  | notModelled (mnemonic : String)
  /-- Raised by the fetch where the host presents a command before it holds the response to the
  previous one: "a model gives a command presented early no meaning (it refuses the run)" (R244). Safe. -/
  | commandBeforeResponse
  /-- Raised by the fetch where the host asserts reset during a command: 93_implementation_defined.md
  I14 says "refuse" (R240). Safe. -/
  | resetDuringCommand
deriving DecidableEq, Repr

/-- The machine's state. -/
structure State where
  /-- The OPEN parameters of the implementation (R6). The model's own field: the argument R6 asks a
  model to take. No step changes it. -/
  params : Params
  /-- The configuration store `cfg` (R20). -/
  cfg : Store
  /-- The STATUS register (R27). -/
  status : Word
  /-- The input ports: the record of the command that runs, or ran last (R32). -/
  inp : Input
  /-- The output ports: the response to the last command, none since reset (R31, R242). -/
  out : Option Response
  /-- What the host does next, first event first (R30). The model's own field. -/
  host : List HostEvent
deriving DecidableEq, Repr

/-- The block right after reset (R34, R240, R242), with parameters `p`, where the host is about to do
`host`: every field at its default, STATUS 0, no response pending and nothing on the input ports. -/
def State.afterReset (p : Params) (host : List HostEvent) : State where
  params := p
  cfg := p.cfgDefault
  status := 0
  inp := Input.idle
  out := none
  host := host

/-- The machine right after reset (R34), for the implementation at hand. -/
def State.reset : State := State.afterReset Config.params []

end Sys2Proof.Machine
end

