-- ==== Sys2Proof/Machine/Operands.lean ====
section
/-! DEFINITION. The operands of the commands: configuration fields (spec 20_memory.md R50, R51, R58),
rows of a column (R24), and the range checks made after decoding (R78, R213). -/

namespace Sys2Proof.Machine

/-- What a command can raise (R211). -/
inductive Err where
  /-- `E_OVERFLOW`, with the group and index it records -/
  | overflow (g : Group) (i : Nat)
  /-- `E_CLKDIV` -/
  | clkDiv
  /-- `E_INDEX` -/
  | index
  /-- `E_ILLEGAL` -/
  | illegal
  /-- `E_PERIOD` -/
  | period
deriving DecidableEq, Repr

/-- `cfg[g][i]` (R10). A field that does not exist is never read (R102). -/
def readField (cfg : Store) (g : Group) (i : Nat) : Slot := (cfg.group g).getD i 0

/-- `cfg[g][i] <- v` (R10): one whole slot (R58). -/
def writeField (cfg : Store) (g : Group) (i : Nat) (v : Slot) : Store :=
  match g with
  | .digital => { cfg with digital := cfg.digital.set i v }
  | .bias => { cfg with bias := cfg.bias.set i v }
  | .dacs => { cfg with dacs := cfg.dacs.set i v }
  | .columns => { cfg with columns := cfg.columns.set i v }

/-- The field exists, `i < N_g` (R50). -/
def fieldExists (p : Params) (g : Group) (i : Nat) : Bool := decide (i < p.count g)

/-- The pixel exists, `c < N_COL` and `r < N_ROWS` (R103). -/
def pixelExists (p : Params) (c r : Nat) : Bool := decide (c < p.nCol) && decide (r < p.nRows)

/-- `E_INDEX` where the addressed field does not exist (R101, R102). -/
def checkField (p : Params) (g : Group) (i : Nat) : Except Err Unit :=
  if fieldExists p g i then .ok () else .error .index

/-- `E_INDEX` where the column or the row does not exist (R103). -/
def checkPixel (p : Params) (c r : Nat) : Except Err Unit :=
  if pixelExists p c r then .ok () else .error .index

/-- `E_CLKDIV` where `K = 0` (R144). -/
def checkDivider (k : Nat) : Except Err Unit := if k = 0 then .error .clkDiv else .ok ()

/-- `E_PERIOD` where `PERIOD = 0` (R194). -/
def checkPeriod (period : Nat) : Except Err Unit := if period = 0 then .error .period else .ok ()

/-- The serialized position `off(g, i)` of field `(g, i)` (R51). -/
def fieldOffset (p : Params) : Group → Nat → Nat
  | .digital, i => i
  | .bias, i => p.nDig + i
  | .dacs, i => p.nDig + p.nBias + 6 * i
  | .columns, i => p.nDig + p.nBias + 6 * p.nDac + 38 * i

end Sys2Proof.Machine
end

