-- ==== Sys2Proof/Machine/Flags.lean ====
section
/-! DEFINITION. STATUS (spec 10_state.md R27, 60_exceptions.md R211) and the flags of a hit record
(R29, R193). -/

namespace Sys2Proof.Machine

/-- The result code of an error (R211). -/
def Err.code : Err → BitVec 4
  | .overflow _ _ => 1
  | .clkDiv => 2
  | .index => 3
  | .illegal => 4
  | .period => 5

/-- The fields of STATUS put together: `CODE` in bits 3:0, `GRP` in 5:4, `IDX` in 15:8, the reserved
bits 0 (R27). -/
def statusWord (code : BitVec 4) (grp : BitVec 2) (idx : BitVec 8) : Word :=
  0#16 ++ idx ++ 0#2 ++ grp ++ code

/-- STATUS after a command that completes without an error (R11, R211). -/
def statusOk : Word := statusWord 0 0 0

/-- STATUS after an error: its code, and for `E_OVERFLOW` the field it records (R212). -/
def Err.status : Err → Word
  | .overflow g i => statusWord (Err.code (.overflow g i)) g.code (BitVec.ofNat 8 i)
  | e => statusWord e.code 0 0

/-- `STATUS.CODE` (R27). -/
def statusCode (w : Word) : BitVec 4 := w.extractLsb' 0 4

/-- `STATUS.GRP` (R27). -/
def statusGrp (w : Word) : BitVec 2 := w.extractLsb' 4 2

/-- `STATUS.IDX` (R27). -/
def statusIdx (w : Word) : BitVec 8 := w.extractLsb' 8 8

/-- A value STATUS may hold (R27, R211): a code in `0 .. 5`, the reserved bits 0, and `GRP` and `IDX`
0 but after `E_OVERFLOW`. -/
abbrev LegalStatus (w : Word) : Prop :=
  statusCode w ≤ 5 ∧ w.extractLsb' 6 2 = 0 ∧ w.extractLsb' 16 16 = 0 ∧
    (statusCode w ≠ 1 → statusGrp w = 0 ∧ statusIdx w = 0)

/-- The well-formedness flag of a frame: `chip_id == 0 && payload == 4` (R193). -/
def wellFormedHit (chipId : BitVec 5) (payload : BitVec 3) : Bool :=
  decide (chipId = 0) && decide (payload = 4)

/-- `is_column`: bit 7 of frame byte 1 (R191). -/
def isColumnHit (b1 : Byte) : Bool := b1.getLsbD 7

end Sys2Proof.Machine
end

