-- ==== Sys2Proof/Machine/Ops.lean ====
section
/-! DEFINITION. The operations every command shares: completing, raising an error (spec
60_exceptions.md R212), byte and sequence primitives (R9, R55), reset (R240), and taking the host's next
event (R30, R244). -/

namespace Sys2Proof.Machine

/-- The state after a command whose effect on the store is `cfg` and whose response is `r`: STATUS and
the output ports take the response's values (R28, R31). -/
def State.respond (s : State) (cfg : Store) (r : Response) : State :=
  { s with cfg := cfg, status := r.status, out := some r }

/-- Error entry (R212): STATUS records the error, `cfg` is unchanged and every output port but
`out.status` is empty or 0. There is no way back to model: the next command runs normally (R214). -/
def State.raise (s : State) (e : Err) : State :=
  s.respond s.cfg { Response.empty with status := e.status }

/-- Completion without an error: `status <- OK` (R11). -/
def State.done (s : State) (cfg : Store) (r : Response) : State :=
  s.respond cfg { r with status := statusOk }

/-- The end of every command: it raises at most one error, or completes (R11, R213). -/
def State.complete (s : State) : Except Err (Store × Response) → State
  | .ok (cfg, r) => s.done cfg r
  | .error e => s.raise e

/-- The host presents an input record (R31, R32). -/
def State.present (s : State) (inp : Input) (rest : List HostEvent) : State :=
  { s with inp := inp, host := rest }

/-- What the host's next event makes of a state. -/
inductive Fetch where
  /-- A command to run, with its input record on the ports. -/
  | run (i : Instr) (s : State)
  /-- No command runs: the state after the event. -/
  | settled (s : State)
  /-- The model gives the event no meaning. -/
  | refused (r : Refusal)

/-- The command on `in.word` runs, or the word is illegal and `E_ILLEGAL` is raised (R80, R81). -/
def fetchWord (s : State) : Fetch :=
  match decode s.inp.word with
  | .ok i => .run i s
  | .error _ => .settled (s.raise .illegal)

/-- The host's next event is taken. With none, the block waits for the next command (R214, R241). -/
def fetch (s : State) : Fetch :=
  match s.host with
  | [] => .settled s
  | .command inp :: rest => fetchWord (s.present inp rest)
  | .reset :: rest => .settled (State.afterReset s.params rest)
  | .commandEarly _ :: _ => .refused .commandBeforeResponse
  | .resetDuringCommand :: _ => .refused .resetDuringCommand

/-- The state in which the host presents the command word `w` next; the other input ports keep their
values. -/
def State.presentNext (s : State) (w : Word) : State :=
  { s with host := .command { s.inp with word := w } :: s.host }

/-- `rev8(x)`: the bits of a byte in reverse order (R55). -/
def rev8 (x : Byte) : Byte :=
  BitVec.ofBool (x.getLsbD 0) ++ BitVec.ofBool (x.getLsbD 1) ++ BitVec.ofBool (x.getLsbD 2) ++
    BitVec.ofBool (x.getLsbD 3) ++ BitVec.ofBool (x.getLsbD 4) ++ BitVec.ofBool (x.getLsbD 5) ++
    BitVec.ofBool (x.getLsbD 6) ++ BitVec.ofBool (x.getLsbD 7)

/-- The optional per-byte bit correction of FRAME and READOUT (R55, R175). -/
def bitCorrect (v : Bool) (bytes : List Byte) : List Byte := if v then bytes.map rev8 else bytes

/-- `ceil_div(a, b)` (R8). -/
def ceilDiv (a b : Nat) : Nat := (a + b - 1) / b

/-- The bits of a field of width `w`, most significant first (R52). -/
def msbFirst : Nat → Slot → List Bool
  | 0, _ => []
  | w + 1, v => v.getLsbD w :: msbFirst w v

end Sys2Proof.Machine
end

