-- ==== Sys2Proof/Machine/ConfigAccess.lean ====
section
/-! DEFINITION. The configuration access commands NOP, FIELD_WR, FIELD_RD and PIXEL_EN (spec
40_config_access.md R100 to R103). -/

namespace Sys2Proof.Machine

/-- `ALLMASK`: the mask bits of every row, in a 64-bit slot (R103). -/
def allMask (p : Params) : Slot :=
  (List.range p.nRows).foldl (fun m q => m ||| (1#64 <<< p.rowPos q)) 0#64

/-- The column word with row `r` its only enabled row (R103). -/
def enableRow (p : Params) (r : Nat) (word : Slot) : Slot :=
  (word &&& ~~~ allMask p) ||| (1#64 <<< p.rowPos r)

/-- FIELD_WR (R101): the whole slot is stored, whatever the field's width. -/
def fieldWr (p : Params) (cfg : Store) (din : Slot) (g : Group) (i : Nat) :
    Except Err (Store × Response) := do
  checkField p g i
  pure (writeField cfg g i din, Response.empty)

/-- FIELD_RD (R102): the slot as stored. -/
def fieldRd (p : Params) (cfg : Store) (g : Group) (i : Nat) : Except Err (Store × Response) := do
  checkField p g i
  pure (cfg, { Response.empty with dout := readField cfg g i })

/-- PIXEL_EN (R103): a read-modify-write of one column word. -/
def pixelEn (p : Params) (cfg : Store) (c r : Nat) : Except Err (Store × Response) := do
  checkPixel p c r
  pure (writeField cfg .columns c (enableRow p r (readField cfg .columns c)), Response.empty)

/-- NOP (R100). -/
def execNop (s : State) : Host.Outcome State Fault Refusal :=
  .next (s.complete (.ok (s.cfg, Response.empty)))

/-- FIELD_WR (R101). -/
def execFieldWr (g : Group) (i : Nat) (s : State) : Host.Outcome State Fault Refusal :=
  .next (s.complete (fieldWr s.params s.cfg s.inp.din g i))

/-- FIELD_RD (R102). -/
def execFieldRd (g : Group) (i : Nat) (s : State) : Host.Outcome State Fault Refusal :=
  .next (s.complete (fieldRd s.params s.cfg g i))

/-- PIXEL_EN (R103). -/
def execPixelEn (c r : Nat) (s : State) : Host.Outcome State Fault Refusal :=
  .next (s.complete (pixelEn s.params s.cfg c r))

end Sys2Proof.Machine
end

