-- ==== Sys2Proof/Machine/Framer.lean ====
section
/-! DEFINITION. The idle-marker frame-boundary scanner and FRAME (spec 43_framer.md R170 to R177). -/

namespace Sys2Proof.Machine

/-- An idle marker `(s, e)` of a buffer (R170): the index of the first byte of its idle run, and the
index just past its terminator. -/
structure Marker where
  start : Nat
  stop : Nat
deriving DecidableEq, Repr

/-- A byte is a terminator, `TERM_LO <= x <= TERM_HI` (R170). -/
def isTerminator (p : Params) (x : Byte) : Bool := decide (p.termLo ≤ x) && decide (x ≤ p.termHi)

/-- R170's own description of a marker of a buffer: a maximal run of `IDLE_BYTE` from `start`, then the
terminator just before `stop`. The scan finds exactly these. -/
def IsMarker (p : Params) (bytes : List Byte) (m : Marker) : Prop :=
  m.start + 1 < m.stop ∧
    (∀ j, m.start ≤ j → j + 1 < m.stop → bytes[j]? = some p.idleByte) ∧
    (∃ x, bytes[m.stop - 1]? = some x ∧ p.termLo ≤ x ∧ x ≤ p.termHi) ∧
    (m.start = 0 ∨ bytes[m.start - 1]? ≠ some p.idleByte)

/-- The marker scan (R171) over the bytes from index `pos` on. `run` is the start of the idle run that
ends at `pos`, if there is one. -/
def scanFrom (p : Params) : List Byte → Nat → Option Nat → List Marker
  | [], _, _ => []
  | b :: rest, pos, run =>
    if b = p.idleByte then scanFrom p rest (pos + 1) (some (run.getD pos))
    else
      match run with
      | none => scanFrom p rest (pos + 1) none
      | some s =>
        if isTerminator p b then ⟨s, pos + 1⟩ :: scanFrom p rest (pos + 1) none
        else scanFrom p rest (pos + 1) none

/-- The markers of a buffer, left to right (R171). -/
def scanMarkers (p : Params) (bytes : List Byte) : List Marker := scanFrom p bytes 0 none

/-- The markers after `prev` that do not share their end with the marker kept before them (R172). -/
def collapseAfter (prev : Marker) : List Marker → List Marker
  | [] => []
  | m :: rest => if m.stop = prev.stop then collapseAfter prev rest else m :: collapseAfter m rest

/-- The first of any consecutive markers with the same end is kept (R172). -/
def collapse : List Marker → List Marker
  | [] => []
  | m :: rest => m :: collapseAfter m rest

/-- The aligned start of a marker, measured from the previous marker's end (R173). -/
def alignedStart (prev cur : Marker) : Nat := prev.stop + 5 * ceilDiv (cur.start - prev.stop) 5

/-- The five bytes of a buffer from index `j` on, if it holds them. -/
def frameAt (bytes : List Byte) (j : Nat) : Option Frame :=
  match bytes.drop j with
  | b0 :: b1 :: b2 :: b3 :: b4 :: _ => some ⟨b0, b1, b2, b3, b4⟩
  | _ => none

/-- The whole 5-byte chunks of a buffer from index `j` up to the index `limit` (R174). The fuel bounds
the chunks; the buffer's length is always enough. -/
def chunksTo (bytes : List Byte) (limit : Nat) : Nat → Nat → List Frame
  | 0, _ => []
  | fuel + 1, j =>
    if j + 5 ≤ limit then
      match frameAt bytes j with
      | some f => f :: chunksTo bytes limit fuel (j + 5)
      | none => []
    else []

/-- The frames of the region between two consecutive markers (R174). -/
def regionFrames (bytes : List Byte) (prev cur : Marker) : List Frame :=
  chunksTo bytes (alignedStart prev cur) bytes.length prev.stop

/-- The frames of every region after the marker `prev` (R174). -/
def extractAfter (bytes : List Byte) (prev : Marker) : List Marker → List Frame
  | [] => []
  | m :: rest => regionFrames bytes prev m ++ extractAfter bytes m rest

/-- `extract(B, markers)`: the frames between consecutive markers, in stream order (R174). -/
def extractFrames (bytes : List Byte) : List Marker → List Frame
  | [] => []
  | m :: rest => extractAfter bytes m rest

/-- The framer on a corrected buffer: `extract(B, collapse(scan(B)))` (R175). -/
def framesOf (p : Params) (bytes : List Byte) : List Frame :=
  extractFrames bytes (collapse (scanMarkers p bytes))

/-- FRAME (R175): no data raises an error. -/
def frame (p : Params) (cfg : Store) (bytes : List Byte) (v : Bool) : Except Err (Store × Response) :=
  pure (cfg, { Response.empty with frames := framesOf p (bitCorrect v bytes) })

/-- FRAME (R175). -/
def execFrame (v : Bool) (s : State) : Host.Outcome State Fault Refusal :=
  .next (s.complete (frame s.params s.cfg s.inp.bytes v))

end Sys2Proof.Machine
end

