-- ==== Sys2Proof/Machine/HitDecoder.lean ====
section
/-! DEFINITION. The hit-frame parser: DECODE and READOUT (spec 44_decoder.md R190 to R196). -/

namespace Sys2Proof.Machine

/-- `tot_ticks`: `(tot_msb << 8) | tot_lsb`, 12 bits (R56, R192). -/
def totTicksOf (msb : BitVec 4) (lsb : BitVec 8) : BitVec 12 :=
  (msb.zeroExtend 12 <<< 8) ||| lsb.zeroExtend 12

/-- `decode1(f, PERIOD)` (R191). -/
def decodeFrame (f : Frame) (period : Nat) : HitRecord :=
  let chipId : BitVec 5 := (f.b0 >>> 3).extractLsb' 0 5
  let payload : BitVec 3 := (f.b0 &&& 0x07#8).extractLsb' 0 3
  let totMsb : BitVec 4 := (f.b3 &&& 0x0F#8).extractLsb' 0 4
  let totTicks := totTicksOf totMsb f.b4
  { chipId := chipId
    payload := payload
    location := (f.b1 &&& 0x3F#8).extractLsb' 0 6
    isColumn := isColumnHit f.b1
    timestamp := f.b2
    totMsb := totMsb
    totLsb := f.b4
    totTicks := totTicks
    totNs := totTicks.toNat * period
    wf := wellFormedHit chipId payload }

/-- `tot_us`, an exact rational number of microseconds (R192). -/
def HitRecord.totUs (r : HitRecord) : Rat := (r.totNs : Rat) / 1000

/-- The records of a sequence of frames, in frame order (R194). -/
def decodeFrames (fs : List Frame) (period : Nat) : List HitRecord :=
  fs.map (fun f => decodeFrame f period)

/-- DECODE (R194). -/
def decodeHits (cfg : Store) (fs : List Frame) (period : Nat) : Except Err (Store × Response) := do
  checkPeriod period
  pure (cfg, { Response.empty with records := decodeFrames fs period })

/-- READOUT (R195): the frames themselves are not set on `out.frames`. -/
def readout (p : Params) (cfg : Store) (bytes : List Byte) (period : Nat) (v : Bool) :
    Except Err (Store × Response) := do
  checkPeriod period
  pure (cfg,
    { Response.empty with records := decodeFrames (framesOf p (bitCorrect v bytes)) period })

/-- DECODE (R194). -/
def execDecode (period : Nat) (s : State) : Host.Outcome State Fault Refusal :=
  .next (s.complete (decodeHits s.cfg s.inp.frames period))

/-- READOUT (R195). -/
def execReadout (period : Nat) (v : Bool) (s : State) : Host.Outcome State Fault Refusal :=
  .next (s.complete (readout s.params s.cfg s.inp.bytes period v))

end Sys2Proof.Machine
end

