-- ==== Sys2Proof/Machine/Serializer.lean ====
section
/-! DEFINITION. The bit-vector serializer and BUILD (spec 41_serializer.md R120 to R125). -/

namespace Sys2Proof.Machine

/-- The bits of the fields of one group, in declaration order (R121). -/
def groupBits (cfg : Store) (g : Group) : List Bool := (cfg.group g).flatMap (msbFirst g.width)

/-- The concatenation `C(cfg)`, groups in order (R121). -/
def concatBits (cfg : Store) : List Bool :=
  groupBits cfg .digital ++ groupBits cfg .bias ++ groupBits cfg .dacs ++ groupBits cfg .columns

/-- The first field of a group that is out of range, if there is one (R122). -/
def overflowIn (cfg : Store) (g : Group) : Option (Group × Nat) :=
  ((cfg.group g).findIdx? (fun v => !fitsWidth g.width v)).map (fun i => (g, i))

/-- The first out-of-range field in serialization order: least group, then least index (R122). -/
def firstOverflow (cfg : Store) : Option (Group × Nat) :=
  ((overflowIn cfg .digital).or (overflowIn cfg .bias)).or
    ((overflowIn cfg .dacs).or (overflowIn cfg .columns))

/-- Field `(g', j)` comes before field `(g, i)` in serialization order (R121, R122). -/
def FieldBefore (g' : Group) (j : Nat) (g : Group) (i : Nat) : Prop :=
  g'.num < g.num ∨ (g' = g ∧ j < i)

/-- `serialize(cfg, M)` (R123): `E_OVERFLOW` with the first out-of-range field, else the
concatenation, reversed end to end unless `M` is 1. -/
def serialize (cfg : Store) (m : Bool) : Except Err (List Bool) :=
  match firstOverflow cfg with
  | some (g, i) => .error (.overflow g i)
  | none => .ok (if m then concatBits cfg else (concatBits cfg).reverse)

/-- BUILD (R120). -/
def build (cfg : Store) (m : Bool) : Except Err (Store × Response) := do
  let bv ← serialize cfg m
  pure (cfg, { Response.empty with bv := bv })

/-- BUILD (R120). -/
def execBuild (m : Bool) (s : State) : Host.Outcome State Fault Refusal :=
  .next (s.complete (build s.cfg m))

end Sys2Proof.Machine
end

