-- ==== Sys2Proof/Machine/Waveform.lean ====
section
/-! DEFINITION. The clock-divided byte-waveform encoder: WAVE_WR, WAVE_RB, CONFIG_WR and CONFIG_RB (spec
42_waveform.md R140 to R150). -/

namespace Sys2Proof.Machine

/-- The write micro-pattern `mp(b)` (R140). -/
def microPattern (p : Params) (b : Bool) : List Byte :=
  let d : Byte := if b then p.sin else 0x00#8
  [d, d ||| p.clkA, d, d ||| p.clkB, d]

/-- The load pulse `LOADP` (R141). -/
def loadPulse (p : Params) : List Byte := [0x00#8, p.load, 0x00#8]

/-- Clock division `div(s, K)`: every byte is repeated `K` times in place (R142). -/
def divideClock (bytes : List Byte) (k : Nat) : List Byte := bytes.flatMap (List.replicate k)

/-- The read-back pattern of one bit, whatever its value (R143). -/
def readBackPattern (p : Params) : List Byte := [0x00#8, p.clkA, 0x00#8, p.clkB, 0x00#8]

/-- The undivided write-mode waveform (R144). -/
def rawWrite (p : Params) (bits : List Bool) (l : Bool) : List Byte :=
  bits.flatMap (microPattern p) ++ (if l then loadPulse p else [])

/-- The undivided read-back waveform (R145). -/
def rawReadBack (p : Params) (bits : List Bool) : List Byte :=
  p.rbHeader.toList ++ bits.flatMap (fun _ => readBackPattern p)

/-- `fixed_overhead` of write mode (R148). -/
def fixedOverhead (l : Bool) : Nat := if l then 3 else 0

/-- The write-mode response for `bits` (R144). -/
def writeWave (p : Params) (bits : List Bool) (k : Nat) (l : Bool) : Response :=
  { Response.empty with
    wave := divideClock (rawWrite p bits l) k
    explen := (5 * bits.length + fixedOverhead l) * k }

/-- The read-back response for `bits` (R145). -/
def readBackWave (p : Params) (bits : List Bool) (k : Nat) : Response :=
  { Response.empty with
    wave := divideClock (rawReadBack p bits) k
    explen := (bits.length + 1) * 5 * k }

/-- WAVE_WR (R144). -/
def waveWr (p : Params) (cfg : Store) (bits : List Bool) (k : Nat) (l : Bool) :
    Except Err (Store × Response) := do
  checkDivider k
  pure (cfg, writeWave p bits k l)

/-- WAVE_RB (R145). -/
def waveRb (p : Params) (cfg : Store) (bits : List Bool) (k : Nat) :
    Except Err (Store × Response) := do
  checkDivider k
  pure (cfg, readBackWave p bits k)

/-- CONFIG_WR (R146): the divider is checked before the store (R213). -/
def configWr (p : Params) (cfg : Store) (k : Nat) (l m : Bool) : Except Err (Store × Response) := do
  checkDivider k
  let bv ← serialize cfg m
  pure (cfg, writeWave p bv k l)

/-- CONFIG_RB (R147): the range check is made although no bit reaches the waveform. -/
def configRb (p : Params) (cfg : Store) (k : Nat) (m : Bool) : Except Err (Store × Response) := do
  checkDivider k
  let bv ← serialize cfg m
  pure (cfg, readBackWave p bv k)

/-- WAVE_WR (R144). -/
def execWaveWr (k : Nat) (l : Bool) (s : State) : Host.Outcome State Fault Refusal :=
  .next (s.complete (waveWr s.params s.cfg s.inp.bits k l))

/-- WAVE_RB (R145). -/
def execWaveRb (k : Nat) (s : State) : Host.Outcome State Fault Refusal :=
  .next (s.complete (waveRb s.params s.cfg s.inp.bits k))

/-- CONFIG_WR (R146). -/
def execConfigWr (k : Nat) (l m : Bool) (s : State) : Host.Outcome State Fault Refusal :=
  .next (s.complete (configWr s.params s.cfg k l m))

/-- CONFIG_RB (R147). -/
def execConfigRb (k : Nat) (m : Bool) (s : State) : Host.Outcome State Fault Refusal :=
  .next (s.complete (configRb s.params s.cfg k m))

end Sys2Proof.Machine
end

