-- ==== Sys2Proof/Machine/Dispatch.lean ====
section
/-! DEFINITION. One arm per command of the opcode map (spec 30_encoding.md R79). -/

namespace Sys2Proof.Machine

def exec (i : Instr) (s : State) : Host.Outcome State Fault Refusal :=
  match i with
  | .nop => Sys2Proof.Machine.execNop s
  | .fieldWr g n => Sys2Proof.Machine.execFieldWr g n s
  | .fieldRd g n => Sys2Proof.Machine.execFieldRd g n s
  | .pixelEn c r => Sys2Proof.Machine.execPixelEn c r s
  | .build m => Sys2Proof.Machine.execBuild m s
  | .waveWr k l => Sys2Proof.Machine.execWaveWr k l s
  | .waveRb k => Sys2Proof.Machine.execWaveRb k s
  | .configWr k l m => Sys2Proof.Machine.execConfigWr k l m s
  | .configRb k m => Sys2Proof.Machine.execConfigRb k m s
  | .frame v => Sys2Proof.Machine.execFrame v s
  | .decode period => Sys2Proof.Machine.execDecode period s
  | .readout period v => Sys2Proof.Machine.execReadout period v s

end Sys2Proof.Machine
end

