-- ==== Sys2Proof/Machine/Assembler.lean ====
section
/-! DEFINITION. The written form of commands: assembler syntax and pseudo-instructions (spec
30_encoding.md R82, R83). The host writes them; the block sees only the input records they stand for. -/

namespace Sys2Proof.Machine

/-- The input record of a command that reads no other port. -/
def inputOf (i : Instr) : Input := { Input.idle with word := encode i }

/-- One row of a persistence table: a field and its value (R83). -/
structure TableRow where
  group : Group
  index : Nat
  value : Slot
deriving DecidableEq, Repr

/-- `FIELD_WR g, i, v`: the value goes to `in.din` (R82). -/
def fieldWrInput (r : TableRow) : Input :=
  { inputOf (.fieldWr r.group r.index) with din := r.value }

/-- Every field of the store in serialization order, `g = 0..3`, `i = 0..N_g - 1` (R83). -/
def fieldOrder (p : Params) : List (Group × Nat) :=
  (List.range p.nDig).map (fun i => (.digital, i)) ++ (List.range p.nBias).map (fun i => (.bias, i)) ++
    (List.range p.nDac).map (fun i => (.dacs, i)) ++ (List.range p.nCol).map (fun i => (.columns, i))

/-- `CONFIGURE k=<K> [msb]` (R83). -/
def configureInputs (k : Nat) (m : Bool) : List Input := [inputOf (.configWr k true m)]

/-- `READBACK k=<K> [msb]` (R83). -/
def readbackInputs (k : Nat) (m : Bool) : List Input := [inputOf (.configRb k m)]

/-- `LOAD_TABLE <rows>`: one FIELD_WR per row, in table order (R83). -/
def loadTableInputs (rows : List TableRow) : List Input := rows.map fieldWrInput

/-- `SAVE_TABLE`: one FIELD_RD per field, in serialization order (R83). -/
def saveTableInputs (p : Params) : List Input :=
  (fieldOrder p).map (fun f => inputOf (.fieldRd f.1 f.2))

/-- The table the host builds from the answers to `SAVE_TABLE` on the store `cfg` (R83). -/
def savedTable (p : Params) (cfg : Store) : List TableRow :=
  (fieldOrder p).map (fun f => ⟨f.1, f.2, readField cfg f.1 f.2⟩)

/-- The host issues these input records one after the other, each once it holds the response to the one
before (R30). -/
def commandsOf (inputs : List Input) : List HostEvent := inputs.map HostEvent.command

/-- The value of a digit, decimal or hexadecimal. -/
def digitValue (c : Char) : Option Nat :=
  if '0' ≤ c ∧ c ≤ '9' then some (c.toNat - '0'.toNat)
  else if 'a' ≤ c ∧ c ≤ 'f' then some (c.toNat - 'a'.toNat + 10)
  else if 'A' ≤ c ∧ c ≤ 'F' then some (c.toNat - 'A'.toNat + 10)
  else none

/-- Digits in a base, after those that make `acc`. -/
def digitsFrom (base acc : Nat) : List Char → Option Nat
  | [] => some acc
  | c :: rest =>
    match digitValue c with
    | some d => if d < base then digitsFrom base (acc * base + d) rest else none
    | none => none

/-- A nonempty number in a base. -/
def numberIn (base : Nat) : List Char → Option Nat
  | [] => none
  | cs => digitsFrom base 0 cs

/-- A number: decimal, or hexadecimal after `0x` (R82). -/
def numberChars : List Char → Option Nat
  | '0' :: 'x' :: cs => numberIn 16 cs
  | cs => numberIn 10 cs

/-- A number token below a bound. -/
def number (bound : Nat) (t : String) : Option Nat :=
  match numberChars t.toList with
  | some n => if n < bound then some n else none
  | none => none

/-- A byte of a data list: hexadecimal, with or without `0x`, as in the spec's examples (R175; assumption
log 7). -/
def byteChars : List Char → Option Nat
  | '0' :: 'x' :: cs => numberIn 16 cs
  | cs => numberIn 16 cs

/-- A byte token. -/
def byteToken (t : String) : Option Byte :=
  match byteChars t.toList with
  | some n => if n < 256 then some (BitVec.ofNat 8 n) else none
  | none => none

/-- A bit token. -/
def bitToken : String → Option Bool
  | "0" => some false
  | "1" => some true
  | _ => none

/-- A group, by name or by number (R82). -/
def groupToken (t : String) : Option Group :=
  match t with
  | "digital" => some .digital
  | "bias" => some .bias
  | "dacs" => some .dacs
  | "columns" => some .columns
  | _ => (number 4 t).map Group.ofNum

/-- Bytes put together five by five into frames. -/
def framesOfBytes : List Byte → Option (List Frame)
  | [] => some []
  | b0 :: b1 :: b2 :: b3 :: b4 :: rest => (framesOfBytes rest).map (⟨b0, b1, b2, b3, b4⟩ :: ·)
  | _ => none

/-- A character that only separates operands (R82; the brackets are those the spec writes around a
frame). -/
def isSeparator (c : Char) : Bool :=
  c == ' ' || c == ',' || c == '[' || c == ']'

/-- The tokens of a line: the runs of other characters, each ended after an equals sign, so that a key
and its value are two tokens. `cur` is the reversed run so far. -/
def tokensFrom (cur : List Char) : List Char → List String
  | [] => if cur.isEmpty then [] else [String.ofList cur.reverse]
  | c :: rest =>
    if isSeparator c then
      if cur.isEmpty then tokensFrom [] rest else String.ofList cur.reverse :: tokensFrom [] rest
    else if c == '=' then String.ofList (c :: cur).reverse :: tokensFrom [] rest
    else tokensFrom (c :: cur) rest

/-- The default `sample_clock_period_ns` of an absent `period=` (R82). -/
def defaultPeriod : Nat := 10

/-- WAVE_WR and its data. -/
def waveWrLine (k : String) (l : Bool) (bits : List String) : Option (List Input) := do
  let k ← number 65536 k
  let bits ← bits.mapM bitToken
  pure [{ inputOf (.waveWr k l) with bits := bits }]

/-- FRAME and its data. -/
def frameLine (v : Bool) (bytes : List String) : Option (List Input) := do
  let bytes ← bytes.mapM byteToken
  pure [{ inputOf (.frame v) with bytes := bytes }]

/-- DECODE and its data. -/
def decodeLine (period : Option Nat) (bytes : List String) : Option (List Input) := do
  let period ← period
  let bytes ← bytes.mapM byteToken
  let fs ← framesOfBytes bytes
  pure [{ inputOf (.decode period) with frames := fs }]

/-- READOUT and its data. -/
def readoutLine (period : Option Nat) (v : Bool) (bytes : List String) : Option (List Input) := do
  let period ← period
  let bytes ← bytes.mapM byteToken
  pure [{ inputOf (.readout period v) with bytes := bytes }]

/-- A command whose one operand is `k=<K>`. -/
def dividerLine (k : String) (f : Nat → List Input) : Option (List Input) :=
  (number 65536 k).map f

/-- The input records of the tokens of a line (R82, R83). -/
def assembleTokens : List String → Option (List Input)
  | ["NOP"] => some [inputOf .nop]
  | ["FIELD_WR", g, i, v] => do
      let g ← groupToken g
      let i ← number 256 i
      let v ← number (2 ^ 64) v
      pure [fieldWrInput ⟨g, i, BitVec.ofNat 64 v⟩]
  | ["FIELD_RD", g, i] => do
      let g ← groupToken g
      let i ← number 256 i
      pure [inputOf (.fieldRd g i)]
  | ["PIXEL_EN", c, r] => do
      let c ← number 256 c
      let r ← number 256 r
      pure [inputOf (.pixelEn c r)]
  | ["BUILD"] => some [inputOf (.build false)]
  | ["BUILD", "msb"] => some [inputOf (.build true)]
  | "WAVE_WR" :: "k=" :: k :: "load" :: "bits=" :: bits => waveWrLine k true bits
  | "WAVE_WR" :: "k=" :: k :: "bits=" :: bits => waveWrLine k false bits
  | "WAVE_RB" :: "k=" :: k :: "bits=" :: bits => do
      let k ← number 65536 k
      let bits ← bits.mapM bitToken
      pure [{ inputOf (.waveRb k) with bits := bits }]
  | ["CONFIG_WR", "k=", k] => dividerLine k (fun k => [inputOf (.configWr k false false)])
  | ["CONFIG_WR", "k=", k, "load"] => dividerLine k (fun k => [inputOf (.configWr k true false)])
  | ["CONFIG_WR", "k=", k, "msb"] => dividerLine k (fun k => [inputOf (.configWr k false true)])
  | ["CONFIG_WR", "k=", k, "load", "msb"] => dividerLine k (fun k => [inputOf (.configWr k true true)])
  | ["CONFIG_RB", "k=", k] => dividerLine k (fun k => [inputOf (.configRb k false)])
  | ["CONFIG_RB", "k=", k, "msb"] => dividerLine k (fun k => [inputOf (.configRb k true)])
  | "FRAME" :: "rev" :: "bytes=" :: bytes => frameLine true bytes
  | "FRAME" :: "bytes=" :: bytes => frameLine false bytes
  | "DECODE" :: "period=" :: t :: "frames=" :: bytes => decodeLine (number 65536 t) bytes
  | "DECODE" :: "frames=" :: bytes => decodeLine (some defaultPeriod) bytes
  | "READOUT" :: "rev" :: "period=" :: t :: "bytes=" :: bytes =>
      readoutLine (number 65536 t) true bytes
  | "READOUT" :: "rev" :: "bytes=" :: bytes => readoutLine (some defaultPeriod) true bytes
  | "READOUT" :: "period=" :: t :: "bytes=" :: bytes => readoutLine (number 65536 t) false bytes
  | "READOUT" :: "bytes=" :: bytes => readoutLine (some defaultPeriod) false bytes
  | ["CONFIGURE", "k=", k] => dividerLine k (fun k => configureInputs k false)
  | ["CONFIGURE", "k=", k, "msb"] => dividerLine k (fun k => configureInputs k true)
  | ["READBACK", "k=", k] => dividerLine k (fun k => readbackInputs k false)
  | ["READBACK", "k=", k, "msb"] => dividerLine k (fun k => readbackInputs k true)
  | _ => none

/-- One line of assembly (R82), `none` where it is no line of the syntax. -/
def assembleLine (line : String) : Option (List Input) := assembleTokens (tokensFrom [] line.toList)

end Sys2Proof.Machine
end

