-- ==== Sys2Proof/Safety.lean ====
section
/-! DEFINITION. What counts as a sound state and a safe run: the machine's invariant, a host that keeps the
command discipline (spec 70_reset_and_hazards.md R240, R244), and the boot order (R243). -/

namespace Sys2Proof.Machine

/-- The invariant of the machine: admissible parameters (R6), a store of the shape they give (R20), a
STATUS value of R27 and R211, and a response that answers STATUS (R28). -/
structure State.Inv (s : State) : Prop where
  admissible : s.params.Admissible
  shaped : s.cfg.Shaped s.params
  legal : LegalStatus s.status
  answered : ∀ r, s.out = some r → r.status = s.status

/-- The event keeps the command discipline: a command once the previous response is held (R244), reset
between commands (R240). -/
def HostEvent.disciplined : HostEvent → Bool
  | .command _ => true
  | .reset => true
  | .commandEarly _ => false
  | .resetDuringCommand => false

/-- Everything the host is about to do keeps the discipline. -/
def State.hostDisciplined (s : State) : Bool := s.host.all HostEvent.disciplined

/-- Where a device session stands (R243). -/
inductive BootPhase where
  | beforeReset
  | configuring
  | running
deriving DecidableEq, Repr

/-- Steps 1 to 4 of the boot order, read off the host's next event: reset first, then fields are set, then
CONFIG_WR is issued, and only then are buffers framed and decoded (R243). `none`: the event comes too
early in the session. The block does not enforce this order. -/
def BootPhase.after : BootPhase → HostEvent → Option BootPhase
  | _, .reset => some .configuring
  | .beforeReset, _ => none
  | .running, .command _ => some .running
  | .configuring, .command inp =>
    match decode inp.word with
    | .ok (.configWr _ _ _) => some .running
    | .ok (.frame _) => none
    | .ok (.decode _) => none
    | .ok (.readout _ _) => none
    | _ => some .configuring
  | _, .commandEarly _ => none
  | _, .resetDuringCommand => none

/-- The host's events keep the boot order from a phase on. -/
def bootOrderedFrom : BootPhase → List HostEvent → Bool
  | _, [] => true
  | ph, e :: rest =>
    match ph.after e with
    | some ph' => bootOrderedFrom ph' rest
    | none => false

/-- The host's events keep the boot order of R243 from the start of a device session. -/
def bootOrdered (host : List HostEvent) : Bool := bootOrderedFrom .beforeReset host

end Sys2Proof.Machine
end

