-- ==== Sys2Proof/Certificates/Slice0/Obligations.lean ====
section
/-! DEFINITION. The statements for the provers. -/

open Sys2Proof Sys2Proof.Machine

/-! Encoding -/

/-- Decoding the word of a well-formed command gives the command back, for every operand the fields
admit (30_encoding.md, formats and operand assembly). -/
def Obligations.DecodeOfEncode : Prop :=
  ∀ i : Instr, i.WellFormed → decode (encode i) = .ok i

/-- A word that decodes is the encoding of the well-formed command it decodes to: no bit of it is
dropped (30_encoding.md, opcode map). -/
def Obligations.EncodeOfDecode : Prop :=
  ∀ (w : Word) (i : Instr), decode w = .ok i → i.WellFormed ∧ encode i = w

/-- R80: the decoder returns the row of R79 whose `word & mask == match`, or refuses when there is none. -/
def Obligations.DecodeFollowsOpcodeMap : Prop :=
  opcodeMap.map (fun r => (r.mnemonic, r.mask, r.pattern)) =
      [("NOP", 0xFFFFFFFF#32, 0x00000000#32), ("FIELD_WR", 0xFFFF00CF#32, 0x00000001#32),
        ("FIELD_RD", 0xFFFF00CF#32, 0x00000002#32), ("PIXEL_EN", 0xFF0000FF#32, 0x00000003#32),
        ("BUILD", 0xFFFFFFEF#32, 0x00000004#32), ("WAVE_WR", 0x0000FFDF#32, 0x00000005#32),
        ("WAVE_RB", 0x0000FFFF#32, 0x00000006#32), ("CONFIG_WR", 0x0000FFCF#32, 0x00000007#32),
        ("CONFIG_RB", 0x0000FFEF#32, 0x00000008#32), ("FRAME", 0xFFFFFFEF#32, 0x00000009#32),
        ("DECODE", 0x0000FFFF#32, 0x0000000A#32), ("READOUT", 0x0000FFEF#32, 0x0000000B#32)] ∧
    ∀ w : Word,
      (∀ r ∈ opcodeMap, w &&& r.mask = r.pattern →
        decode w = .ok (r.operands w) ∧ (r.operands w).mnemonic = r.mnemonic) ∧
      ((∃ e, decode w = .error e) ↔ ∀ r ∈ opcodeMap, w &&& r.mask ≠ r.pattern)

/-- R81: the illegal words are those with `OP` in `0xC..0xF` and those with a 1 in a bit their row's mask
requires to be 0; an illegal word raises `E_ILLEGAL` and nothing else changes. -/
def Obligations.IllegalWordsRaiseIllegal : Prop :=
  (∀ w : Word, (∃ e, decode w = .error e) ↔
    (0xC#32 ≤ w &&& 0xF#32 ∨
      ∃ r ∈ opcodeMap, w &&& 0xF#32 = r.pattern ∧
        ∃ k, 4 ≤ k ∧ r.mask.getLsbD k = true ∧ w.getLsbD k = true)) ∧
    ∀ (s : State) (inp : Input) (rest : List HostEvent) (e : IllegalWord),
      s.host = .command inp :: rest → decode inp.word = .error e →
        step s = .next { s with
          inp := inp, host := rest, status := 0x4#32
          out := some { Response.empty with status := 0x4#32 } }

/-- Words written out from the encoding patterns of R79 decode to the commands they stand for. -/
def Obligations.SpecWordsDecode : Prop :=
  decodeTableWord 32 0x00000000 = some .nop ∧
    decodeTableWord 32 0x00000321 = some (.fieldWr .dacs 3) ∧
    decodeTableWord 32 0x00000032 = some (.fieldRd .columns 0) ∧
    decodeTableWord 32 0x00230103 = some (.pixelEn 1 35) ∧
    decodeTableWord 32 0x00000014 = some (.build true) ∧
    decodeTableWord 32 0xFFFF0005 = some (.waveWr 65535 false) ∧
    decodeTableWord 32 0x00010006 = some (.waveRb 1) ∧
    decodeTableWord 32 0x00010027 = some (.configWr 1 true false) ∧
    decodeTableWord 32 0x00020018 = some (.configRb 2 true) ∧
    decodeTableWord 32 0x00000019 = some (.frame true) ∧
    decodeTableWord 32 0x000A000A = some (.decode 10) ∧
    decodeTableWord 32 0x000A001B = some (.readout 10 true) ∧
    decodeTableWord 32 0x0000000C = none ∧ decodeTableWord 32 0x00010026 = none

/-! The machine -/

/-- When the host presents a word that decodes to a command, the step runs that command with the
presented record on the input ports and the host's event taken. The list of events is the model's choice
(assumption log 3). -/
def Obligations.StepRunsDecodedCommand : Prop :=
  ∀ (s : State) (inp : Input) (rest : List HostEvent) (i : Instr),
    s.host = .command inp :: rest → decode inp.word = .ok i →
      step s = exec i { s with inp := inp, host := rest }

/-- With no command presented the block waits: the step changes nothing (R214, R241). That the model
answers a next state here and does not stop is its own choice (assumption log 5). -/
def Obligations.WaitsWithoutCommand : Prop :=
  ∀ s : State, s.host = [] → step s = .next s

/-- R240: reset, asserted between commands, sets every field to its default and clears STATUS. -/
def Obligations.ResetRestoresDefaults : Prop :=
  ∀ (s : State) (rest : List HostEvent), s.host = .reset :: rest →
    ∃ t, step s = .next t ∧ t.params = s.params ∧ t.host = rest ∧ t.status = 0x00000000#32 ∧
      ∀ g i, i < s.params.count g → readField t.cfg g i = readField s.params.cfgDefault g i

/-- Reset asserted during a command is refused (93_implementation_defined.md I14; R240 says it never
is). -/
def Obligations.ResetDuringCommandRefused : Prop :=
  ∀ (s : State) (rest : List HostEvent), s.host = .resetDuringCommand :: rest →
    step s = .refused .resetDuringCommand

/-- R244: a command presented before the response to the previous one is held has no meaning, whatever
its word. -/
def Obligations.EarlyCommandRefused : Prop :=
  ∀ (s : State) (inp : Input) (rest : List HostEvent), s.host = .commandEarly inp :: rest →
    step s = .refused .commandBeforeResponse

/-- R34: what reset leaves, whatever the parameters: every field at its default and STATUS 0. The machine
starts from that state, with parameters that R6 admits; that nothing is presented then is the model's
choice (assumption log 1 and 4). -/
def Obligations.ResetValues : Prop :=
  (∀ (p : Params) (host : List HostEvent), p.Admissible →
    (State.afterReset p host).status = 0x00000000#32 ∧
      ∀ g i, i < p.count g →
        readField (State.afterReset p host).cfg g i = readField p.cfgDefault g i ∧
          (readField (State.afterReset p host).cfg g i).toNat < 2 ^ g.width) ∧
    State.reset = State.afterReset Config.params [] ∧ Config.params.Admissible

/-- The invariant holds right after reset. -/
def Obligations.InvHoldsAtReset : Prop := State.reset.Inv

/-- Every step keeps the invariant: the parameters stay admissible, the store keeps its shape, STATUS
holds a legal value and the response answers STATUS. -/
def Obligations.StepKeepsInv : Prop :=
  ∀ s t : State, s.Inv → step s = .next t → t.Inv

/-- A host that keeps the command discipline is never refused, however long the run. The list of the
host's events, one a step, and waiting once it is empty are the model's choice (assumption log 3 and
5). -/
def Obligations.DisciplinedHostNeverRefused : Prop :=
  ∀ (n : Nat) (s : State), s.hostDisciplined = true →
    ∃ t : State, Host.Core.run Sys2Proof.core n s = .next t ∧ t.host = s.host.drop n ∧ t.params = s.params

/-! Rules of the whole block -/

/-- Every command completes, in every state: it answers a next state, its response carries the value
STATUS then holds, a legal one, and the parameters, the input ports and the host's events are left
alone. -/
def Obligations.EveryCommandAnswers : Prop :=
  ∀ (i : Instr) (s : State), ∃ (t : State) (r : Response), exec i s = .next t ∧ t.out = some r ∧ r.status = t.status ∧
    LegalStatus t.status ∧ t.params = s.params ∧ t.inp = s.inp ∧ t.host = s.host

/-- R212: error entry records the error in STATUS, keeps the store and empties every other port; and a
command that ends with an error code changes nothing else. -/
def Obligations.ErrorsArePrecise : Prop :=
  (∀ (s : State) (e : Err),
    statusCode (s.raise e).status = e.code ∧
      statusGrp (s.raise e).status = (match e with | .overflow g _ => g.code | _ => 0) ∧
      statusIdx (s.raise e).status = (match e with | .overflow _ i => BitVec.ofNat 8 i | _ => 0) ∧
      (s.raise e).status.extractLsb' 6 2 = 0 ∧ (s.raise e).status.extractLsb' 16 16 = 0 ∧
      s.raise e = { s with
        status := (s.raise e).status
        out := some { Response.empty with status := (s.raise e).status } }) ∧
    ∀ (i : Instr) (s t : State), exec i s = .next t → statusCode t.status ≠ 0 →
      ∃ e : Err, t = s.raise e

/-- R213: the one error a command reports, in order: the word, then the addressed field or pixel, then
the divider or the period, then the first out-of-range field of the store. -/
def Obligations.ErrorPriority : Prop :=
  ∀ (s t : State) (inp : Input) (rest : List HostEvent),
    s.host = .command inp :: rest → step s = .next t →
      t.status =
        match decode inp.word with
        | .error _ => 0x4#32
        | .ok .nop => 0#32
        | .ok (.fieldWr g i) => if i < s.params.count g then 0#32 else 0x3#32
        | .ok (.fieldRd g i) => if i < s.params.count g then 0#32 else 0x3#32
        | .ok (.pixelEn c r) => if c < s.params.nCol ∧ r < s.params.nRows then 0#32 else 0x3#32
        | .ok (.build _) => (match firstOverflow s.cfg with | some f => (Err.overflow f.1 f.2).status | none => 0#32)
        | .ok (.waveWr k _) => if k = 0 then 0x2#32 else 0#32
        | .ok (.waveRb k) => if k = 0 then 0x2#32 else 0#32
        | .ok (.configWr k _ _) => if k = 0 then 0x2#32 else
            (match firstOverflow s.cfg with | some f => (Err.overflow f.1 f.2).status | none => 0#32)
        | .ok (.configRb k _) => if k = 0 then 0x2#32 else
            (match firstOverflow s.cfg with | some f => (Err.overflow f.1 f.2).status | none => 0#32)
        | .ok (.frame _) => 0#32
        | .ok (.decode period) => if period = 0 then 0x5#32 else 0#32
        | .ok (.readout period _) => if period = 0 then 0x5#32 else 0#32

/-- No command reads STATUS or the previous response: after an error the next command runs normally and
overwrites STATUS (R214). -/
def Obligations.NoCommandReadsStatus : Prop :=
  ∀ (i : Instr) (s : State) (st : Word) (o : Option Response),
    exec i { s with status := st, out := o } = exec i s

/-- FRAME, DECODE, READOUT, WAVE_WR and WAVE_RB are functions of their inputs: they neither change the
store nor depend on it (R35). -/
def Obligations.StreamCommandsIgnoreStore : Prop :=
  ∀ (s t : State) (cfg : Store) (i : Instr),
    ((∃ v, i = .frame v) ∨ (∃ period, i = .decode period) ∨ (∃ period v, i = .readout period v) ∨
      (∃ k l, i = .waveWr k l) ∨ (∃ k, i = .waveRb k)) →
    exec i s = .next t → t.cfg = s.cfg ∧ exec i { s with cfg := cfg } = .next { t with cfg := cfg }

/-- Only reset, FIELD_WR and PIXEL_EN can change the configuration store (R26). -/
def Obligations.OnlyWritesChangeStore : Prop :=
  ∀ s t : State, step s = .next t → t.cfg ≠ s.cfg →
    (∃ rest, s.host = .reset :: rest) ∨
      ∃ inp rest, s.host = .command inp :: rest ∧
        ((∃ g i, decode inp.word = .ok (.fieldWr g i)) ∨ ∃ c r, decode inp.word = .ok (.pixelEn c r))

/-- FIELD_RD, BUILD, CONFIG_WR and CONFIG_RB leave the store unchanged, and issued twice in a row give
the same response (R59). -/
def Obligations.ReadingCommandsIdempotent : Prop :=
  ∀ (s t : State) (i : Instr),
    ((∃ g n, i = .fieldRd g n) ∨ (∃ m, i = .build m) ∨ (∃ k l m, i = .configWr k l m) ∨
      (∃ k m, i = .configRb k m)) →
    exec i s = .next t → t.cfg = s.cfg ∧ exec i t = .next t

/-- A port that a command does not set is empty or 0 in its response (R31). -/
def Obligations.UnsetPortsEmpty : Prop :=
  ∀ (i : Instr) (s t : State) (r : Response), exec i s = .next t → t.out = some r →
    (i.mnemonic ≠ "FIELD_RD" → r.dout = 0) ∧
      (i.mnemonic ≠ "BUILD" → r.bv = []) ∧
      (i.mnemonic ∉ ["WAVE_WR", "WAVE_RB", "CONFIG_WR", "CONFIG_RB"] → r.wave = [] ∧ r.explen = 0) ∧
      (i.mnemonic ≠ "FRAME" → r.frames = []) ∧
      (i.mnemonic ∉ ["DECODE", "READOUT"] → r.records = [])

/-- A command ignores every input port it does not read (R32): with other values there it does the
same. -/
def Obligations.UnreadPortsIgnored : Prop :=
  ∀ (i : Instr) (s t : State) (inp : Input), exec i s = .next t →
    (i.mnemonic = "FIELD_WR" → inp.din = s.inp.din) →
    (i.mnemonic ∈ ["WAVE_WR", "WAVE_RB"] → inp.bits = s.inp.bits) →
    (i.mnemonic ∈ ["FRAME", "READOUT"] → inp.bytes = s.inp.bytes) →
    (i.mnemonic = "DECODE" → inp.frames = s.inp.frames) →
    exec i { s with inp := inp } = .next { t with inp := inp }

/-! Configuration access -/

/-- R100: NOP clears STATUS and does nothing else; a word with `OP = 0` and another bit set is illegal. -/
def Obligations.NopOnlyClearsStatus : Prop :=
  (∀ s : State, exec .nop s = .next { s with status := 0#32, out := some Response.empty }) ∧
    decode 0x00000000#32 = .ok .nop ∧
    ∀ w : Word, w &&& 0xF#32 = 0#32 → w ≠ 0#32 → ∃ e, decode w = .error e

/-- FIELD_WR on a field that exists stores the whole of `in.din`, whatever the field's width, and changes
no other field; on a field that does not exist it raises `E_INDEX` (R101). -/
def Obligations.FieldWrStoresWholeSlot : Prop :=
  (∀ (s : State) (g : Group) (i : Nat), s.cfg.Shaped s.params → i < s.params.count g →
    ∃ t : State, exec (.fieldWr g i) s = .next t ∧ readField t.cfg g i = s.inp.din ∧
      (∀ g' j, (g' = g → j ≠ i) → readField t.cfg g' j = readField s.cfg g' j) ∧
      t.cfg.Shaped s.params ∧
      t = { s with cfg := t.cfg, status := 0#32, out := some Response.empty }) ∧
    ∀ (s : State) (g : Group) (i : Nat), s.params.count g ≤ i →
      exec (.fieldWr g i) s = .next { s with
        status := 0x3#32, out := some { Response.empty with status := 0x3#32 } }

/-- FIELD_RD on a field that exists answers the slot as stored and changes no field; on a field that
does not exist it raises `E_INDEX` (R102). -/
def Obligations.FieldRdAnswersSlot : Prop :=
  (∀ (s : State) (g : Group) (i : Nat), i < s.params.count g →
    exec (.fieldRd g i) s = .next { s with
      status := 0#32, out := some { Response.empty with dout := readField s.cfg g i } }) ∧
    ∀ (s : State) (g : Group) (i : Nat), s.params.count g ≤ i →
      exec (.fieldRd g i) s = .next { s with
        status := 0x3#32, out := some { Response.empty with status := 0x3#32 } }

/-- FIELD_WR stores a value that is too wide without an error, and the next BUILD, CONFIG_WR or CONFIG_RB
raises `E_OVERFLOW` (R101, R122). -/
def Obligations.WideValueStoredThenOverflows : Prop :=
  ∀ (s : State) (g : Group) (i : Nat), s.cfg.Shaped s.params → i < s.params.count g →
    2 ^ g.width ≤ s.inp.din.toNat →
    ∃ t : State, exec (.fieldWr g i) s = .next t ∧ t.status = 0#32 ∧ readField t.cfg g i = s.inp.din ∧
      ∀ (k : Nat) (l m : Bool), k ≠ 0 → ∀ c ∈ [Instr.build m, .configWr k l m, .configRb k m],
        ∃ u, exec c t = .next u ∧ statusCode u.status = 1 ∧ u.cfg = t.cfg

/-- PIXEL_EN leaves exactly one mask bit of the column set, that of the row, keeps every bit of the slot
that is no mask bit, and changes no other field (R103). -/
def Obligations.PixelEnSetsExactlyOneMaskBit : Prop :=
  ∀ (s : State) (c r : Nat), s.params.Admissible → s.cfg.Shaped s.params →
    c < s.params.nCol → r < s.params.nRows →
    ∃ t : State, exec (.pixelEn c r) s = .next t ∧
      (∀ q, q < s.params.nRows →
        (readField t.cfg .columns c).getLsbD (s.params.rowPos q) = decide (q = r)) ∧
      (∀ k, (∀ q, q < s.params.nRows → s.params.rowPos q ≠ k) →
        (readField t.cfg .columns c).getLsbD k = (readField s.cfg .columns c).getLsbD k) ∧
      (∀ g j, (g = .columns → j ≠ c) → readField t.cfg g j = readField s.cfg g j) ∧
      t.cfg.Shaped s.params ∧
      t = { s with cfg := t.cfg, status := 0#32, out := some Response.empty }

/-- PIXEL_EN on a column or a row that does not exist raises `E_INDEX` (R103, R211). -/
def Obligations.PixelEnChecksRange : Prop :=
  ∀ (s : State) (c r : Nat), s.params.nCol ≤ c ∨ s.params.nRows ≤ r →
    exec (.pixelEn c r) s = .next { s with
      status := 0x3#32, out := some { Response.empty with status := 0x3#32 } }

/-- R104: loading the table saved from a store over any store of the same shape, then BUILD, gives the
BitVector of the store the table was saved from. That the table's commands are events of the host, one a
step, and that the events after them are left is the model's choice (assumption log 3). -/
def Obligations.TableRoundTrip : Prop :=
  ∀ (s : State) (cfg : Store) (rest : List HostEvent), s.params.Admissible →
    s.cfg.Shaped s.params → cfg.Shaped s.params →
    s.host = commandsOf (loadTableInputs (savedTable s.params cfg)) ++ rest →
    ∃ t : State, Host.Core.run Sys2Proof.core (savedTable s.params cfg).length s = .next t ∧ t.cfg = cfg ∧
      t.host = rest ∧ t.params = s.params ∧
      ∀ m u v, exec (.build m) t = .next u → exec (.build m) { s with cfg := cfg } = .next v →
        u.out = v.out

/-! Serializer -/

/-- BUILD with `M = 1` on a store whose fields are in range answers `NBITS` bits, with bit `k` of field
`(g, i)` at offset `off(g, i) + (W - 1 - k)`, and changes nothing but STATUS and the ports (R51, R52). -/
def Obligations.BuildPlacesEveryBit : Prop :=
  ∀ s : State, s.cfg.Shaped s.params → s.cfg.InRange →
    ∃ r : Response, exec (.build true) s = .next { s with status := 0#32, out := some r } ∧
      r = { Response.empty with bv := r.bv } ∧ r.bv.length = s.params.nbits ∧
      ∀ g i k, i < s.params.count g → k < g.width →
        r.bv[(match g with
            | .digital => i
            | .bias => s.params.nDig + i
            | .dacs => s.params.nDig + s.params.nBias + 6 * i
            | .columns => s.params.nDig + s.params.nBias + 6 * s.params.nDac + 38 * i) +
          (g.width - 1 - k)]? = some ((readField s.cfg g i).getLsbD k)

/-- R124: BUILD answers as many bits as the fields have, depends on the store and `M` alone, and the
BitVector for `M = 0` is the reverse of the one for `M = 1`. -/
def Obligations.BuildLengthAndReversal : Prop :=
  ∀ s : State, s.cfg.Shaped s.params → s.cfg.InRange →
    ∃ r0 r1 : Response, exec (.build false) s = .next { s with status := 0#32, out := some r0 } ∧
      exec (.build true) s = .next { s with status := 0#32, out := some r1 } ∧
      r0.bv = r1.bv.reverse ∧ r0.bv.reverse = r1.bv ∧
      r0.bv.length = s.params.nDig * 1 + s.params.nBias * 1 + s.params.nDac * 6 + s.params.nCol * 38 ∧
      (∀ j, j < r0.bv.length → r0.bv[j]? = r1.bv[r0.bv.length - 1 - j]?) ∧
      ∀ (u : State) (m : Bool), u.cfg = s.cfg →
        exec (.build m) u = .next { u with status := 0#32, out := some (if m then r1 else r0) }

/-- R122: BUILD fails with the first out-of-range field in serialization order, and succeeds exactly when
every field is in range. -/
def Obligations.BuildReportsFirstOverflow : Prop :=
  (∀ (s : State) (m : Bool) (g : Group) (i : Nat), i < (s.cfg.group g).length →
    2 ^ g.width ≤ (readField s.cfg g i).toNat →
    (∀ g' j, FieldBefore g' j g i → j < (s.cfg.group g').length →
      (readField s.cfg g' j).toNat < 2 ^ g'.width) →
    exec (.build m) s = .next { s with
      status := statusWord 1 g.code (BitVec.ofNat 8 i)
      out := some { Response.empty with status := statusWord 1 g.code (BitVec.ofNat 8 i) } }) ∧
    ∀ (s t : State) (m : Bool), exec (.build m) s = .next t →
      (t.status = 0#32 ↔ ∀ g i, i < (s.cfg.group g).length →
        (readField s.cfg g i).toNat < 2 ^ g.width)

/-- R7: the BitVector length is the sum of the field widths, at most 11776. -/
def Obligations.NbitsBound : Prop :=
  ∀ p : Params, p.Admissible →
    p.nbits = p.nDig * 1 + p.nBias * 1 + p.nDac * 6 + p.nCol * 38 ∧ p.nbits ≤ 11776

/-! Waveform encoder -/

/-- WAVE_WR with `K >= 1`: bit `j` gives the bytes `d, d|CLK_A, d, d|CLK_B, d`, each repeated `K` times,
the load strobe adds `00, LOAD, 00`, and there is no other byte (R140, R141, R142, R144). -/
def Obligations.WaveWrBytes : Prop :=
  ∀ (s : State) (k : Nat) (l : Bool), k ≠ 0 →
    ∃ r : Response, exec (.waveWr k l) s = .next { s with status := 0#32, out := some r } ∧
      r = { Response.empty with wave := r.wave, explen := r.explen } ∧
      r.explen = (5 * s.inp.bits.length + (if l then 3 else 0)) * k ∧ r.wave.length = r.explen ∧
      (∀ (j : Nat) (b : Bool) (q e : Nat), s.inp.bits[j]? = some b → q < 5 → e < k →
        r.wave[(5 * j + q) * k + e]? =
          (let d : Byte := if b then s.params.sin else 0x00#8
           [d, d ||| s.params.clkA, d, d ||| s.params.clkB, d])[q]?) ∧
      (l = true → ∀ q e, q < 3 → e < k →
        r.wave[(5 * s.inp.bits.length + q) * k + e]? = [0x00#8, s.params.load, 0x00#8][q]?)

/-- WAVE_RB with `K >= 1`: the header once, then `00, CLK_A, 00, CLK_B, 00` for each bit whatever its
value, each byte repeated `K` times, no load strobe (R142, R143, R145). -/
def Obligations.WaveRbBytes : Prop :=
  ∀ (s : State) (k : Nat), k ≠ 0 →
    ∃ r : Response, exec (.waveRb k) s = .next { s with status := 0#32, out := some r } ∧
      r = { Response.empty with wave := r.wave, explen := r.explen } ∧
      r.explen = (s.inp.bits.length + 1) * 5 * k ∧ r.wave.length = r.explen ∧
      (∀ q e, q < 5 → e < k → r.wave[q * k + e]? = s.params.rbHeader.toList[q]?) ∧
      ∀ j q e, j < s.inp.bits.length → q < 5 → e < k →
        r.wave[(5 + 5 * j + q) * k + e]? =
          [0x00#8, s.params.clkA, 0x00#8, s.params.clkB, 0x00#8][q]?

/-- A zero divider raises `E_CLKDIV` in each of the four waveform commands, whatever the store holds
(R211, R213). -/
def Obligations.ZeroDividerRaises : Prop :=
  ∀ (s : State) (l m : Bool),
    ∀ i ∈ [Instr.waveWr 0 l, .waveRb 0, .configWr 0 l m, .configRb 0 m],
      exec i s = .next { s with
        status := 0x2#32, out := some { Response.empty with status := 0x2#32 } }

/-- CONFIG_WR with `K >= 1` completes on a store in range with the response of BUILD followed by WAVE_WR;
on any other store it ends as BUILD does (R146). -/
def Obligations.ConfigWrIsBuildThenWaveWr : Prop :=
  ∀ (s : State) (k : Nat) (l m : Bool), k ≠ 0 →
    (s.cfg.InRange → ∃ b r : Response, exec (.build m) s = .next { s with status := 0#32, out := some b } ∧
      exec (.waveWr k l) { s with inp := { s.inp with bits := b.bv } } =
        .next { s with inp := { s.inp with bits := b.bv }, status := 0#32, out := some r } ∧
      exec (.configWr k l m) s = .next { s with status := 0#32, out := some r }) ∧
    (¬ s.cfg.InRange → exec (.configWr k l m) s = exec (.build m) s)

/-- CONFIG_RB with `K >= 1` completes on a store in range with the response of BUILD followed by WAVE_RB;
on any other store it ends as BUILD does; `M` changes nothing (R147). -/
def Obligations.ConfigRbIsBuildThenWaveRb : Prop :=
  ∀ (s : State) (k : Nat) (m : Bool), k ≠ 0 →
    (s.cfg.InRange → ∃ b r : Response, exec (.build m) s = .next { s with status := 0#32, out := some b } ∧
      exec (.waveRb k) { s with inp := { s.inp with bits := b.bv } } =
        .next { s with inp := { s.inp with bits := b.bv }, status := 0#32, out := some r } ∧
      exec (.configRb k m) s = .next { s with status := 0#32, out := some r }) ∧
    (¬ s.cfg.InRange → exec (.configRb k m) s = exec (.build m) s) ∧
    exec (.configRb k m) s = exec (.configRb k (!m)) s

/-- R148: `out.explen` is `(bits*5 + fixed_overhead) * K` in write mode and `((bits+1)*5) * K` in
read-back mode, it is the length of `out.wave` in all four commands, and it is below `2^32` for CONFIG_WR
and CONFIG_RB. -/
def Obligations.ExpectedLength : Prop :=
  ∀ (s : State) (k : Nat) (l m : Bool), k ≠ 0 → k < 2 ^ 16 →
    (∃ (t : State) (r : Response), exec (.waveWr k l) s = .next t ∧ t.out = some r ∧
      r.explen = (s.inp.bits.length * 5 + (if l then 3 else 0)) * k ∧ r.explen = r.wave.length) ∧
    (∃ (t : State) (r : Response), exec (.waveRb k) s = .next t ∧ t.out = some r ∧
      r.explen = (s.inp.bits.length + 1) * 5 * k ∧ r.explen = r.wave.length) ∧
    (s.params.Admissible → s.cfg.Shaped s.params → s.cfg.InRange →
      (∃ (t : State) (r : Response), exec (.configWr k l m) s = .next t ∧ t.out = some r ∧
        r.explen = (s.params.nbits * 5 + (if l then 3 else 0)) * k ∧ r.explen = r.wave.length ∧
        r.explen ≤ 3859028475) ∧
      ∃ (t : State) (r : Response), exec (.configRb k m) s = .next t ∧ t.out = some r ∧
        r.explen = (s.params.nbits + 1) * 5 * k ∧ r.explen = r.wave.length ∧
        r.explen ≤ 3859028475)

/-- R142: clock division repeats every byte `K` times in place: copy `e` of byte `j` stands at
`j * K + e`, and past the copies of the last byte nothing does. -/
def Obligations.ClockDivisionRepeatsInPlace : Prop :=
  ∀ (bytes : List Byte) (k : Nat), 1 ≤ k →
    ∀ j e, e < k → (divideClock bytes k)[j * k + e]? = bytes[j]?

/-- Every byte of a write-mode waveform has only bits of the four lines, and the load line is asserted
only with the data and clock lines released (R54, R140, R141). -/
def Obligations.WriteBytesUseOnlyTheLines : Prop :=
  ∀ (s t : State) (r : Response) (k : Nat) (l m : Bool) (x : Byte),
    (exec (.waveWr k l) s = .next t ∨ exec (.configWr k l m) s = .next t) → t.out = some r →
    x ∈ r.wave →
      x &&& ~~~ (s.params.sin ||| s.params.clkA ||| s.params.clkB ||| s.params.load) = 0#8 ∧
        (s.params.Admissible → x &&& s.params.load ≠ 0#8 → x = s.params.load)

/-! Framer -/

/-- R55: `rev8` moves bit `k` to bit `7 - k`, and is what `V` does to every byte of the framer's
buffer. -/
def Obligations.ByteReversal : Prop :=
  (∀ (x : Byte) (k : Nat), k < 8 → (rev8 x).getLsbD (7 - k) = x.getLsbD k) ∧
    ∀ s t : State, exec (.frame true) s = .next t →
      exec (.frame false) { s with inp := { s.inp with bytes := s.inp.bytes.map rev8 } } =
        .next { t with inp := { s.inp with bytes := s.inp.bytes.map rev8 } }

/-- R170: the scan lists exactly the markers of a buffer, in order, and each ends before the next
begins. -/
def Obligations.ScanFindsExactlyTheMarkers : Prop :=
  ∀ (p : Params) (bytes : List Byte), p.Admissible →
    (∀ m, m ∈ scanMarkers p bytes ↔ IsMarker p bytes m) ∧
      (scanMarkers p bytes).Pairwise (fun m m' => m.stop ≤ m'.start)

/-- R172: of consecutive markers with the same end the first is kept, and the scan gives none such. -/
def Obligations.CollapseKeepsScan : Prop :=
  (∀ a b rest, collapse (a :: b :: rest) =
    if a.stop = b.stop then collapse (a :: rest) else a :: collapse (b :: rest)) ∧
    ∀ (p : Params) (bytes : List Byte), collapse (scanMarkers p bytes) = scanMarkers p bytes

/-- R173: the aligned start is the least index not before the marker's start that is a multiple of 5
bytes from the previous marker's end. -/
def Obligations.AlignedStartRoundsUp : Prop :=
  ∀ prev cur : Marker, prev.stop ≤ cur.start →
    alignedStart prev cur = prev.stop + 5 * ((cur.start - prev.stop + 5 - 1) / 5) ∧
      cur.start ≤ alignedStart prev cur ∧
      ∀ n, cur.start ≤ prev.stop + 5 * n → alignedStart prev cur ≤ prev.stop + 5 * n

/-- The frames of a region are the whole 5-byte chunks from the first marker's end to the aligned start,
those inside the buffer, in order (R174). -/
def Obligations.RegionFramesAreChunks : Prop :=
  ∀ (bytes : List Byte) (prev cur : Marker), prev.stop ≤ cur.start →
    (∀ j f, (regionFrames bytes prev cur)[j]? = some f ↔
      (prev.stop + 5 * j + 5 ≤ alignedStart prev cur ∧ prev.stop + 5 * j + 5 ≤ bytes.length ∧
        f.toList = (bytes.drop (prev.stop + 5 * j)).take 5)) ∧
    (alignedStart prev cur ≤ bytes.length →
      (regionFrames bytes prev cur).length = (cur.start - prev.stop + 5 - 1) / 5)

/-- FRAME completes on every buffer: STATUS is OK and `out.frames` holds the frames of the corrected
buffer, region by region (R175). -/
def Obligations.FrameAnswersRegions : Prop :=
  ∀ (s : State) (v : Bool),
    ∃ r : Response, exec (.frame v) s = .next { s with status := 0#32, out := some r } ∧
      r = { Response.empty with frames := r.frames } ∧
      (let bytes := if v then s.inp.bytes.map rev8 else s.inp.bytes
       let markers := scanMarkers s.params bytes
       r.frames = (markers.zip markers.tail).flatMap (fun mm => regionFrames bytes mm.1 mm.2))

/-- Framing completeness under its condition: between two markers that are the only markers of the
buffer, two frames come out exactly, unless the second is five idle bytes (R176). -/
def Obligations.FramingCompleteness : Prop :=
  ∀ (s : State) (n1 n2 : Nat) (t1 t2 : Byte) (f1 f2 : Frame), s.params.Admissible →
    isTerminator s.params t1 = true → isTerminator s.params t2 = true →
    s.inp.bytes = List.replicate (n1 + 1) s.params.idleByte ++ [t1] ++ f1.toList ++ f2.toList ++
      List.replicate (n2 + 1) s.params.idleByte ++ [t2] →
    (∀ m, IsMarker s.params s.inp.bytes m → m.stop = n1 + 2 ∨ m.stop = s.inp.bytes.length) →
    f2.toList ≠ List.replicate 5 s.params.idleByte →
    exec (.frame false) s = .next { s with
      status := 0#32, out := some { Response.empty with frames := [f1, f2] } }

/-- A buffer with at most one marker gives no frames, and neither does a buffer that is a concatenation
of markers (R175, R176). -/
def Obligations.NoFramesWithoutGap : Prop :=
  (∀ s : State, (∀ m m', IsMarker s.params s.inp.bytes m → IsMarker s.params s.inp.bytes m' → m = m') →
    s.params.Admissible →
    exec (.frame false) s = .next { s with status := 0#32, out := some Response.empty }) ∧
    ∀ (s : State) (ms : List (Nat × Byte)), s.params.Admissible →
      (∀ m ∈ ms, isTerminator s.params m.2 = true) →
      s.inp.bytes = ms.flatMap (fun m => List.replicate (m.1 + 1) s.params.idleByte ++ [m.2]) →
      exec (.frame false) s = .next { s with status := 0#32, out := some Response.empty }

/-! Hit parser -/

/-- DECODE with `PERIOD >= 1` answers one record per frame, in frame order, with the fields of R190 and
R191, whatever the frames hold (R193, R194). -/
def Obligations.DecodeRecordFields : Prop :=
  ∀ (s : State) (period : Nat), period ≠ 0 →
    ∃ r : Response, exec (.decode period) s = .next { s with status := 0#32, out := some r } ∧
      r = { Response.empty with records := r.records } ∧
      r.records.length = s.inp.frames.length ∧
      ∀ (j : Nat) (f : Frame), s.inp.frames[j]? = some f → ∃ h : HitRecord, r.records[j]? = some h ∧
        h.chipId.toNat = f.b0.toNat / 8 ∧ h.payload.toNat = f.b0.toNat % 8 ∧
        h.location.toNat = f.b1.toNat % 64 ∧ h.isColumn = decide (128 ≤ f.b1.toNat) ∧
        h.timestamp = f.b2 ∧ h.totMsb.toNat = f.b3.toNat % 16 ∧ h.totLsb = f.b4 ∧
        h.totTicks.toNat = f.b3.toNat % 16 * 256 + f.b4.toNat ∧
        h.totNs = h.totTicks.toNat * period ∧ h.totUs = (h.totNs : Rat) / 1000 ∧
        h.wf = decide (h.chipId = 0 ∧ h.payload = 4)

/-- R192: `tot_ticks` is in `[0, 4095]` and `tot_ns` is exact and below `2^28`. -/
def Obligations.TotArithmetic : Prop :=
  ∀ (f : Frame) (period : Nat),
    (decodeFrame f period).totTicks.toNat ≤ 4095 ∧
      (decodeFrame f period).totTicks.toNat =
        (decodeFrame f period).totMsb.toNat * 256 + (decodeFrame f period).totLsb.toNat ∧
      (decodeFrame f period).totNs = (decodeFrame f period).totTicks.toNat * period ∧
      (decodeFrame f period).totUs = ((decodeFrame f period).totNs : Rat) / 1000 ∧
      (period < 2 ^ 16 → (decodeFrame f period).totNs ≤ 268365825)

/-- R193: a record is well formed exactly when the first byte is `0x04`, and a malformed frame is still
reported, without an error. -/
def Obligations.WellFormedFlag : Prop :=
  (∀ (f : Frame) (period : Nat), (decodeFrame f period).wf = true ↔ f.b0 = 0x04#8) ∧
    ∀ (s : State) (period : Nat), period ≠ 0 → ∃ (t : State) (r : Response), exec (.decode period) s = .next t ∧
      t.out = some r ∧ t.status = 0#32 ∧
      ∀ (j : Nat) (f : Frame), s.inp.frames[j]? = some f → r.records[j]? = some (decodeFrame f period)

/-- A zero period raises `E_PERIOD` in DECODE and READOUT, whatever they are given (R211). -/
def Obligations.ZeroPeriodRaises : Prop :=
  ∀ (s : State) (v : Bool), ∀ i ∈ [Instr.decode 0, .readout 0 v],
    exec i s = .next { s with
      status := 0x5#32, out := some { Response.empty with status := 0x5#32 } }

/-- READOUT with `PERIOD >= 1` completes with the response of FRAME followed by DECODE, `out.frames`
left empty (R195). -/
def Obligations.ReadoutIsFrameThenDecode : Prop :=
  ∀ (s : State) (period : Nat) (v : Bool), period ≠ 0 →
    ∃ fr r : Response, exec (.frame v) s = .next { s with status := 0#32, out := some fr } ∧
      exec (.decode period) { s with inp := { s.inp with frames := fr.frames } } =
        .next { s with inp := { s.inp with frames := fr.frames }, status := 0#32, out := some r } ∧
      exec (.readout period v) s = .next { s with status := 0#32, out := some r } ∧ r.frames = []

/-! Assembler -/

/-- Lines of the spec's examples assemble to the words and data the spec gives them (R82, R83). How the
bytes of a data list are written is the model's reading of the examples (assumption log 7). -/
def Obligations.SpecLinesAssemble : Prop :=
  assembleLine "FIELD_WR dacs, 3, 0x2A" = some [{ Input.idle with word := 0x00000321#32, din := 0x2A#64 }] ∧
    assembleLine "PIXEL_EN 0, 4" = some [{ Input.idle with word := 0x00040003#32 }] ∧
    assembleLine "BUILD msb" = some [{ Input.idle with word := 0x00000014#32 }] ∧
    assembleLine "WAVE_WR k=2 load bits=1 0 1" =
      some [{ Input.idle with word := 0x00020025#32, bits := [true, false, true] }] ∧
    assembleLine "DECODE frames=[04 00 00 01 00]" =
      some [{ Input.idle with word := 0x000A000A#32, frames := [⟨0x04, 0, 0, 0x01, 0⟩] }] ∧
    assembleLine "CONFIGURE k=1" = some [{ Input.idle with word := 0x00010027#32 }]
end

