-- ==== Sys2Proof/Laws/State.lean ====
section
/-! SUPPORT. The fields of the state after each named update. -/

namespace Sys2Proof.Machine

variable (s : State) (cfg : Store) (r : Response) (inp : Input) (rest : List HostEvent) (w : Word)
  (e : Err) (p : Params)

@[simp] theorem respond_params : (s.respond cfg r).params = s.params := rfl
@[simp] theorem respond_cfg : (s.respond cfg r).cfg = cfg := rfl
@[simp] theorem respond_status : (s.respond cfg r).status = r.status := rfl
@[simp] theorem respond_inp : (s.respond cfg r).inp = s.inp := rfl
@[simp] theorem respond_out : (s.respond cfg r).out = some r := rfl
@[simp] theorem respond_host : (s.respond cfg r).host = s.host := rfl

@[simp] theorem raise_params : (s.raise e).params = s.params := rfl
@[simp] theorem raise_cfg : (s.raise e).cfg = s.cfg := rfl
@[simp] theorem raise_status : (s.raise e).status = e.status := rfl
@[simp] theorem raise_inp : (s.raise e).inp = s.inp := rfl
@[simp] theorem raise_out :
    (s.raise e).out = some { Response.empty with status := e.status } := rfl
@[simp] theorem raise_host : (s.raise e).host = s.host := rfl

@[simp] theorem done_params : (s.done cfg r).params = s.params := rfl
@[simp] theorem done_cfg : (s.done cfg r).cfg = cfg := rfl
@[simp] theorem done_status : (s.done cfg r).status = statusOk := rfl
@[simp] theorem done_inp : (s.done cfg r).inp = s.inp := rfl
@[simp] theorem done_out : (s.done cfg r).out = some { r with status := statusOk } := rfl
@[simp] theorem done_host : (s.done cfg r).host = s.host := rfl

@[simp] theorem present_params : (s.present inp rest).params = s.params := rfl
@[simp] theorem present_cfg : (s.present inp rest).cfg = s.cfg := rfl
@[simp] theorem present_status : (s.present inp rest).status = s.status := rfl
@[simp] theorem present_inp : (s.present inp rest).inp = inp := rfl
@[simp] theorem present_out : (s.present inp rest).out = s.out := rfl
@[simp] theorem present_host : (s.present inp rest).host = rest := rfl

@[simp] theorem afterReset_params : (State.afterReset p rest).params = p := rfl
@[simp] theorem afterReset_cfg : (State.afterReset p rest).cfg = p.cfgDefault := rfl
@[simp] theorem afterReset_status : (State.afterReset p rest).status = 0 := rfl
@[simp] theorem afterReset_inp : (State.afterReset p rest).inp = Input.idle := rfl
@[simp] theorem afterReset_out : (State.afterReset p rest).out = none := rfl
@[simp] theorem afterReset_host : (State.afterReset p rest).host = rest := rfl

@[simp] theorem presentNext_params : (s.presentNext w).params = s.params := rfl
@[simp] theorem presentNext_cfg : (s.presentNext w).cfg = s.cfg := rfl
@[simp] theorem presentNext_status : (s.presentNext w).status = s.status := rfl
@[simp] theorem presentNext_inp : (s.presentNext w).inp = s.inp := rfl
@[simp] theorem presentNext_out : (s.presentNext w).out = s.out := rfl
@[simp] theorem presentNext_host :
    (s.presentNext w).host = .command { s.inp with word := w } :: s.host := rfl

end Sys2Proof.Machine
end

