-- ==== Sys2Proof/Laws/Ops.lean ====
section
/-! SUPPORT. What the shared operations do, each said once: completing a command, running one, and taking a
step. -/

namespace Sys2Proof.Machine

/-- STATUS after a command without an error is 0. -/
@[simp] theorem statusOk_eq : statusOk = 0#32 := by decide

@[simp] theorem complete_ok (s : State) (cfg : Store) (r : Response) :
    s.complete (.ok (cfg, r)) = s.done cfg r := rfl

@[simp] theorem complete_error (s : State) (e : Err) : s.complete (.error e) = s.raise e := rfl

/-- A command either completes with STATUS OK or raises one error. -/
theorem complete_cases (s : State) (res : Except Err (Store × Response)) :
    (∃ cfg r, res = .ok (cfg, r) ∧ s.complete res = s.done cfg r) ∨
      ∃ e, res = .error e ∧ s.complete res = s.raise e := by
  rcases res with e | ⟨cfg, r⟩
  · exact .inr ⟨e, rfl, rfl⟩
  · exact .inl ⟨cfg, r, rfl, rfl⟩

/-- The effect of a command: what its meaning completes with. -/
def effectOf (i : Instr) (s : State) : Except Err (Store × Response) :=
  match i with
  | .nop => .ok (s.cfg, Response.empty)
  | .fieldWr g n => fieldWr s.params s.cfg s.inp.din g n
  | .fieldRd g n => fieldRd s.params s.cfg g n
  | .pixelEn c r => pixelEn s.params s.cfg c r
  | .build m => build s.cfg m
  | .waveWr k l => waveWr s.params s.cfg s.inp.bits k l
  | .waveRb k => waveRb s.params s.cfg s.inp.bits k
  | .configWr k l m => configWr s.params s.cfg k l m
  | .configRb k m => configRb s.params s.cfg k m
  | .frame v => frame s.params s.cfg s.inp.bytes v
  | .decode period => decodeHits s.cfg s.inp.frames period
  | .readout period v => readout s.params s.cfg s.inp.bytes period v

/-- Every command completes with its effect. -/
theorem exec_eq_complete (i : Instr) (s : State) : exec i s = .next (s.complete (effectOf i s)) := by
  cases i <;> rfl

/-- What a command can do: complete with STATUS OK, or raise one error. -/
theorem exec_cases (i : Instr) (s : State) :
    (∃ cfg r, effectOf i s = .ok (cfg, r) ∧ exec i s = .next (s.done cfg r)) ∨
      ∃ e, effectOf i s = .error e ∧ exec i s = .next (s.raise e) := by
  rw [exec_eq_complete]
  rcases complete_cases s (effectOf i s) with ⟨cfg, r, h, h'⟩ | ⟨e, h, h'⟩
  · exact .inl ⟨cfg, r, h, by rw [h']⟩
  · exact .inr ⟨e, h, by rw [h']⟩

@[simp] theorem step_idle (s : State) (h : s.host = []) : step s = .next s := by
  simp [step, fetch, h]

theorem step_command_ok (s : State) (inp : Input) (rest : List HostEvent) (i : Instr)
    (h : s.host = .command inp :: rest) (hd : decode inp.word = .ok i) :
    step s = exec i (s.present inp rest) := by
  simp [step, fetch, fetchWord, h, hd]

theorem step_command_illegal (s : State) (inp : Input) (rest : List HostEvent) (e : IllegalWord)
    (h : s.host = .command inp :: rest) (hd : decode inp.word = .error e) :
    step s = .next ((s.present inp rest).raise .illegal) := by
  simp [step, fetch, fetchWord, h, hd]

theorem step_reset (s : State) (rest : List HostEvent) (h : s.host = .reset :: rest) :
    step s = .next (State.afterReset s.params rest) := by
  simp [step, fetch, h]

theorem step_commandEarly (s : State) (inp : Input) (rest : List HostEvent)
    (h : s.host = .commandEarly inp :: rest) : step s = .refused .commandBeforeResponse := by
  simp [step, fetch, h]

theorem step_resetDuringCommand (s : State) (rest : List HostEvent)
    (h : s.host = .resetDuringCommand :: rest) : step s = .refused .resetDuringCommand := by
  simp [step, fetch, h]

/-- What a step that answers a next state can do: wait, run a decoded command, raise `E_ILLEGAL`, or
reset. -/
theorem step_cases (s t : State) (h : step s = .next t) :
    (s.host = [] ∧ t = s) ∨
      (∃ inp rest i, s.host = .command inp :: rest ∧ decode inp.word = .ok i ∧
        exec i (s.present inp rest) = .next t) ∨
      (∃ inp rest e, s.host = .command inp :: rest ∧ decode inp.word = .error e ∧
        t = (s.present inp rest).raise .illegal) ∨
      ∃ rest, s.host = .reset :: rest ∧ t = State.afterReset s.params rest := by
  match hh : s.host with
  | [] => rw [step_idle s hh] at h; cases h; exact .inl ⟨rfl, rfl⟩
  | .command inp :: rest =>
    match hd : decode inp.word with
    | .ok i => rw [step_command_ok s inp rest i hh hd] at h; exact .inr (.inl ⟨inp, rest, i, rfl, hd, h⟩)
    | .error e =>
      rw [step_command_illegal s inp rest e hh hd] at h; cases h
      exact .inr (.inr (.inl ⟨inp, rest, e, rfl, hd, rfl⟩))
  | .reset :: rest =>
    rw [step_reset s rest hh] at h; cases h; exact .inr (.inr (.inr ⟨rest, rfl, rfl⟩))
  | .commandEarly inp :: rest => rw [step_commandEarly s inp rest hh] at h; cases h
  | .resetDuringCommand :: rest => rw [step_resetDuringCommand s rest hh] at h; cases h

/-- `rev8` undoes itself (R55). -/
@[simp] theorem rev8_rev8 (x : Byte) : rev8 (rev8 x) = x := by
  revert x; decide

/-! STATUS -/

@[simp] theorem statusCode_statusWord (c : BitVec 4) (g : BitVec 2) (i : BitVec 8) :
    statusCode (statusWord c g i) = c := by
  apply BitVec.eq_of_getLsbD_eq
  intro k hk
  simp only [statusCode, statusWord, BitVec.getLsbD_extractLsb', BitVec.getLsbD_append]
  interval_cases k <;> simp

@[simp] theorem statusGrp_statusWord (c : BitVec 4) (g : BitVec 2) (i : BitVec 8) :
    statusGrp (statusWord c g i) = g := by
  apply BitVec.eq_of_getLsbD_eq
  intro k hk
  simp only [statusGrp, statusWord, BitVec.getLsbD_extractLsb', BitVec.getLsbD_append]
  interval_cases k <;> simp

@[simp] theorem statusIdx_statusWord (c : BitVec 4) (g : BitVec 2) (i : BitVec 8) :
    statusIdx (statusWord c g i) = i := by
  apply BitVec.eq_of_getLsbD_eq
  intro k hk
  simp only [statusIdx, statusWord, BitVec.getLsbD_extractLsb', BitVec.getLsbD_append]
  interval_cases k <;> simp

theorem statusReserved_statusWord (c : BitVec 4) (g : BitVec 2) (i : BitVec 8) :
    (statusWord c g i).extractLsb' 6 2 = 0 ∧ (statusWord c g i).extractLsb' 16 16 = 0 := by
  constructor <;>
  · apply BitVec.eq_of_getLsbD_eq
    intro k hk
    simp only [statusWord, BitVec.getLsbD_extractLsb', BitVec.getLsbD_append]
    interval_cases k <;> simp

/-- STATUS after an error, field by field. -/
theorem status_error (e : Err) :
    e.status = statusWord e.code (match e with | .overflow g _ => g.code | _ => 0)
      (match e with | .overflow _ i => BitVec.ofNat 8 i | _ => 0) := by
  cases e <;> rfl

@[simp] theorem statusCode_error (e : Err) : statusCode e.status = e.code := by
  rw [status_error, statusCode_statusWord]

/-- Every error leaves a legal STATUS. -/
theorem legalStatus_error (e : Err) : LegalStatus e.status := by
  rw [status_error]
  refine ⟨?_, (statusReserved_statusWord _ _ _).1, (statusReserved_statusWord _ _ _).2, ?_⟩
  · rw [statusCode_statusWord]; cases e <;> simp [Err.code]
  · rw [statusCode_statusWord, statusGrp_statusWord, statusIdx_statusWord]
    cases e <;> simp [Err.code]

/-- STATUS OK is legal. -/
theorem legalStatus_zero : LegalStatus 0#32 := by decide

end Sys2Proof.Machine
end

