-- ==== Sys2Proof/Laws/Commands.lean ====
section
/-! SUPPORT. The effect of each command, one lemma per outcome: the error it raises, or the store and the
response it completes with. -/

namespace Sys2Proof.Machine

theorem effect_fieldWr_ok (s : State) (g : Group) (i : Nat) (h : i < s.params.count g) :
    effectOf (.fieldWr g i) s = .ok (writeField s.cfg g i s.inp.din, Response.empty) := by
  simp [effectOf, fieldWr, checkField, fieldExists, h, bind, Except.bind, pure, Except.pure]

theorem effect_fieldWr_index (s : State) (g : Group) (i : Nat) (h : s.params.count g ≤ i) :
    effectOf (.fieldWr g i) s = .error .index := by
  simp [effectOf, fieldWr, checkField, fieldExists, Nat.not_lt.mpr h, bind, Except.bind]

theorem effect_fieldRd_ok (s : State) (g : Group) (i : Nat) (h : i < s.params.count g) :
    effectOf (.fieldRd g i) s = .ok (s.cfg, { Response.empty with dout := readField s.cfg g i }) := by
  simp [effectOf, fieldRd, checkField, fieldExists, h, bind, Except.bind, pure, Except.pure]

theorem effect_fieldRd_index (s : State) (g : Group) (i : Nat) (h : s.params.count g ≤ i) :
    effectOf (.fieldRd g i) s = .error .index := by
  simp [effectOf, fieldRd, checkField, fieldExists, Nat.not_lt.mpr h, bind, Except.bind]

theorem effect_pixelEn_ok (s : State) (c r : Nat) (hc : c < s.params.nCol) (hr : r < s.params.nRows) :
    effectOf (.pixelEn c r) s =
      .ok (writeField s.cfg .columns c (enableRow s.params r (readField s.cfg .columns c)),
        Response.empty) := by
  simp [effectOf, pixelEn, checkPixel, pixelExists, hc, hr, bind, Except.bind, pure, Except.pure]

theorem effect_pixelEn_index (s : State) (c r : Nat) (h : s.params.nCol ≤ c ∨ s.params.nRows ≤ r) :
    effectOf (.pixelEn c r) s = .error .index := by
  have : pixelExists s.params c r = false := by
    simp only [pixelExists, Bool.and_eq_false_iff, decide_eq_false_iff_not]; omega
  simp [effectOf, pixelEn, checkPixel, this, bind, Except.bind]

theorem effect_build (s : State) (m : Bool) :
    effectOf (.build m) s =
      (serialize s.cfg m).map (fun bv => (s.cfg, { Response.empty with bv := bv })) := by
  cases h : serialize s.cfg m <;>
    simp [effectOf, build, h, bind, Except.bind, pure, Except.pure, Except.map]

theorem effect_waveWr_ok (s : State) (k : Nat) (l : Bool) (h : k ≠ 0) :
    effectOf (.waveWr k l) s = .ok (s.cfg, writeWave s.params s.inp.bits k l) := by
  simp [effectOf, waveWr, checkDivider, h, bind, Except.bind, pure, Except.pure]

theorem effect_waveRb_ok (s : State) (k : Nat) (h : k ≠ 0) :
    effectOf (.waveRb k) s = .ok (s.cfg, readBackWave s.params s.inp.bits k) := by
  simp [effectOf, waveRb, checkDivider, h, bind, Except.bind, pure, Except.pure]

theorem effect_configWr (s : State) (k : Nat) (l m : Bool) (h : k ≠ 0) :
    effectOf (.configWr k l m) s =
      (serialize s.cfg m).map (fun bv => (s.cfg, writeWave s.params bv k l)) := by
  cases hs : serialize s.cfg m <;>
    simp [effectOf, configWr, checkDivider, h, hs, bind, Except.bind, pure, Except.pure, Except.map]

theorem effect_configRb (s : State) (k : Nat) (m : Bool) (h : k ≠ 0) :
    effectOf (.configRb k m) s =
      (serialize s.cfg m).map (fun bv => (s.cfg, readBackWave s.params bv k)) := by
  cases hs : serialize s.cfg m <;>
    simp [effectOf, configRb, checkDivider, h, hs, bind, Except.bind, pure, Except.pure, Except.map]

theorem effect_frame (s : State) (v : Bool) :
    effectOf (.frame v) s =
      .ok (s.cfg, { Response.empty with frames := framesOf s.params (bitCorrect v s.inp.bytes) }) :=
  rfl

theorem effect_decode_ok (s : State) (period : Nat) (h : period ≠ 0) :
    effectOf (.decode period) s =
      .ok (s.cfg, { Response.empty with records := decodeFrames s.inp.frames period }) := by
  simp [effectOf, decodeHits, checkPeriod, h, bind, Except.bind, pure, Except.pure]

theorem effect_readout_ok (s : State) (period : Nat) (v : Bool) (h : period ≠ 0) :
    effectOf (.readout period v) s =
      .ok (s.cfg, { Response.empty with
        records := decodeFrames (framesOf s.params (bitCorrect v s.inp.bytes)) period }) := by
  simp [effectOf, readout, checkPeriod, h, bind, Except.bind, pure, Except.pure]

/-! The store -/

/-- The list of a group after a write. -/
theorem group_writeField (cfg : Store) (g g' : Group) (i : Nat) (v : Slot) :
    (writeField cfg g i v).group g' = if g' = g then (cfg.group g).set i v else cfg.group g' := by
  cases g <;> cases g' <;> rfl

@[simp] theorem length_group_writeField (cfg : Store) (g g' : Group) (i : Nat) (v : Slot) :
    ((writeField cfg g i v).group g').length = (cfg.group g').length := by
  rw [group_writeField]; split
  · next h => rw [List.length_set, h]
  · rfl

/-- A field reads as it was written. -/
theorem readField_writeField_same (cfg : Store) (g : Group) (i : Nat) (v : Slot)
    (h : i < (cfg.group g).length) : readField (writeField cfg g i v) g i = v := by
  simp [readField, group_writeField, List.getD_eq_getElem?_getD, h]

/-- A write leaves every other field alone. -/
theorem readField_writeField_other (cfg : Store) (g g' : Group) (i j : Nat) (v : Slot)
    (h : g' = g → j ≠ i) : readField (writeField cfg g i v) g' j = readField cfg g' j := by
  unfold readField
  rw [group_writeField]
  split
  · next hg =>
    subst hg
    rw [List.getD_eq_getElem?_getD, List.getD_eq_getElem?_getD, List.getElem?_set_ne (h rfl).symm]
  · rfl

/-- The lengths of a store's groups are its parameters' counts. -/
theorem length_group_of_shaped {p : Params} {cfg : Store} (h : cfg.Shaped p) (g : Group) :
    (cfg.group g).length = p.count g := by
  obtain ⟨h0, h1, h2, h3⟩ := h
  cases g
  · exact h0
  · exact h1
  · exact h2
  · exact h3

/-- A write keeps the shape of the store. -/
theorem shaped_writeField {p : Params} {cfg : Store} (g : Group) (i : Nat) (v : Slot)
    (h : cfg.Shaped p) : (writeField cfg g i v).Shaped p := by
  cases g <;> simpa [writeField, Store.Shaped] using h

/-- The shape the reset store has. -/
theorem shaped_reset {p : Params} (h : p.Admissible) : p.cfgDefault.Shaped p := h.2.2.2.1.1

/-- Every command keeps the shape of the store. -/
theorem shaped_effect {s : State} {cfg : Store} {r : Response} (i : Instr)
    (hs : s.cfg.Shaped s.params) (h : effectOf i s = .ok (cfg, r)) : cfg.Shaped s.params := by
  cases i <;>
    simp only [effectOf, fieldWr, fieldRd, pixelEn, build, waveWr, waveRb, configWr, configRb, frame,
      decodeHits, readout, bind, Except.bind, pure, Except.pure] at h <;>
    (try split at h) <;> (try split at h) <;> cases h <;>
    first
    | exact hs
    | exact shaped_writeField _ _ _ hs

/-- Only FIELD_WR and PIXEL_EN complete with another store. -/
theorem cfg_effect {s : State} {cfg : Store} {r : Response} (i : Instr)
    (h : effectOf i s = .ok (cfg, r)) :
    cfg = s.cfg ∨ (∃ g n, i = .fieldWr g n) ∨ ∃ c n, i = .pixelEn c n := by
  cases i
  case fieldWr g n => exact .inr (.inl ⟨g, n, rfl⟩)
  case pixelEn c n => exact .inr (.inr ⟨c, n, rfl⟩)
  all_goals
    left
    simp only [effectOf, fieldRd, build, waveWr, waveRb, configWr, configRb, frame, decodeHits,
      readout, bind, Except.bind, pure, Except.pure] at h
    (try split at h) <;> (try split at h) <;> cases h
    all_goals rfl

/-! The range check -/

/-- The first overflow of a group is none exactly when the group is in range. -/
theorem overflowIn_eq_none (cfg : Store) (g : Group) :
    overflowIn cfg g = none ↔ (cfg.group g).all (fitsWidth g.width) = true := by
  simp [overflowIn]

/-- Serialization finds no overflow exactly when the store is in range. -/
theorem firstOverflow_eq_none (cfg : Store) : firstOverflow cfg = none ↔ cfg.InRange := by
  simp only [firstOverflow, Option.or_eq_none_iff, overflowIn_eq_none, Store.InRange, and_assoc]
  rfl

theorem serialize_ok {cfg : Store} (m : Bool) (h : cfg.InRange) :
    serialize cfg m = .ok (if m then concatBits cfg else (concatBits cfg).reverse) := by
  rw [serialize, (firstOverflow_eq_none cfg).mpr h]

theorem serialize_overflow {cfg : Store} (m : Bool) (h : ¬ cfg.InRange) :
    ∃ g i, firstOverflow cfg = some (g, i) ∧ serialize cfg m = .error (.overflow g i) := by
  match hf : firstOverflow cfg with
  | none => exact absurd ((firstOverflow_eq_none cfg).mp hf) h
  | some (g, i) => exact ⟨g, i, rfl, by rw [serialize, hf]⟩

end Sys2Proof.Machine
end

