-- ==== Sys2Proof/Laws/ConfigAccess.lean ====
section
/-! SUPPORT. The mask bits of a column word, bit by bit (spec 40_config_access.md R103). -/

namespace Sys2Proof.Machine

theorem getLsbD_foldl_or (f : Nat → Slot) (l : List Nat) (m : Slot) (k : Nat) :
    (l.foldl (fun m q => m ||| f q) m).getLsbD k =
      (m.getLsbD k || l.any (fun q => (f q).getLsbD k)) := by
  induction l generalizing m with
  | nil => simp
  | cons a l ih => simp [ih, Bool.or_assoc]

theorem getLsbD_one_shiftLeft (q k : Nat) (hq : q < 64) :
    ((1#64) <<< q).getLsbD k = decide (q = k) := by
  rw [BitVec.getLsbD_shiftLeft]
  by_cases h : q = k
  · subst h; simp [hq]
  · simp [h]; intro h1 h2; omega

/-- A row's mask bit lies in the column word. -/
theorem rowPos_lt {p : Params} (h : p.Admissible) (q : Nat) : p.rowPos q < 38 := by
  obtain ⟨-, -, ⟨h1, h2, h3⟩, -⟩ := h
  unfold Params.rowPos
  by_cases hq : q < p.maskPos.length
  · rw [List.getD_eq_getElem _ _ hq]; exact h2 _ (List.getElem_mem hq)
  · rw [List.getD_eq_default _ _ (by omega)]; omega

/-- Two rows have two mask bits. -/
theorem rowPos_inj {p : Params} (h : p.Admissible) {q r : Nat} (hq : q < p.nRows) (hr : r < p.nRows)
    (e : p.rowPos q = p.rowPos r) : q = r := by
  obtain ⟨-, -, ⟨h1, h2, h3⟩, -⟩ := h
  unfold Params.rowPos at e
  rw [List.getD_eq_getElem _ _ (h1 ▸ hq), List.getD_eq_getElem _ _ (h1 ▸ hr)] at e
  exact (List.Nodup.getElem_inj_iff h3).1 e

/-- `ALLMASK` has a 1 exactly at the mask bits. -/
theorem getLsbD_allMask {p : Params} (h : p.Admissible) (k : Nat) :
    (allMask p).getLsbD k = true ↔ ∃ q < p.nRows, p.rowPos q = k := by
  unfold allMask
  rw [getLsbD_foldl_or]
  simp only [BitVec.getLsbD_zero, Bool.false_or, List.any_eq_true, List.mem_range]
  constructor
  · rintro ⟨q, hq, hb⟩
    rw [getLsbD_one_shiftLeft _ _ (by have := rowPos_lt h q; omega)] at hb
    exact ⟨q, hq, by simpa using hb⟩
  · rintro ⟨q, hq, hb⟩
    exact ⟨q, hq, by rw [getLsbD_one_shiftLeft _ _ (by have := rowPos_lt h q; omega)]; simpa using hb⟩

/-- The new column word, bit by bit. -/
theorem getLsbD_enableRow {p : Params} (h : p.Admissible) (r : Nat) (w : Slot) (k : Nat) (hk : k < 64) :
    (enableRow p r w).getLsbD k =
      ((w.getLsbD k && !(allMask p).getLsbD k) || decide (p.rowPos r = k)) := by
  unfold enableRow
  rw [BitVec.getLsbD_or, BitVec.getLsbD_and, BitVec.getLsbD_not,
    getLsbD_one_shiftLeft _ _ (by have := rowPos_lt h r; omega)]
  simp [hk]

end Sys2Proof.Machine
end

