-- ==== Sys2Proof/Laws/Encoding.lean ====
section
/-! SUPPORT. The fields of an encoded word, and what the decoder answers for a word a row accepts. -/

namespace Sys2Proof

theorem wordBits_eq_extract (w : Word) (hi lo : Nat) :
    wordBits w hi lo = (w.extractLsb' lo (hi + 1 - lo)).toNat := by
  simp [wordBits, BitVec.extractLsb'_toNat, Nat.shiftRight_eq_div_pow]

theorem Group.ofNum_num (g : Group) : Group.ofNum g.num = g := by cases g <;> rfl

theorem Group.num_lt (g : Group) : g.num < 4 := by cases g <;> decide

theorem Group.toNat_code (g : Group) : g.code.toNat = g.num := by cases g <;> rfl

/-! The opcode map -/

/-- A row stands at the index its opcode names, its mask keeps the opcode and its pattern is the opcode. -/
theorem opcodeMap_row (r : OpRow) (h : r ∈ opcodeMap) :
    opcodeMap[r.pattern.toNat]? = some r ∧ r.mask &&& 0xF#32 = 0xF#32 ∧
      r.pattern &&& 0xF#32 = r.pattern := by
  simp only [opcodeMap, List.mem_cons, List.not_mem_nil, or_false] at h
  rcases h with rfl | rfl | rfl | rfl | rfl | rfl | rfl | rfl | rfl | rfl | rfl | rfl <;>
    exact ⟨rfl, by decide, by decide⟩

theorem OpRow.accepts_iff (r : OpRow) (w : Word) : r.accepts w = true ↔ w &&& r.mask = r.pattern := by
  simp [OpRow.accepts]

/-- The opcode of a word that a row accepts. -/
theorem opcode_of_accepts (r : OpRow) (w : Word) (h : r ∈ opcodeMap) (ha : r.accepts w = true) :
    w &&& 0xF#32 = r.pattern := by
  rw [OpRow.accepts_iff] at ha
  obtain ⟨-, hm, hp⟩ := opcodeMap_row r h
  rw [← hp, ← ha, BitVec.and_assoc, hm]

/-- No word is accepted by two rows. -/
theorem accepts_unique (r r' : OpRow) (w : Word) (h : r ∈ opcodeMap) (h' : r' ∈ opcodeMap)
    (ha : r.accepts w = true) (ha' : r'.accepts w = true) : r = r' := by
  have e : r.pattern = r'.pattern :=
    (opcode_of_accepts r w h ha).symm.trans (opcode_of_accepts r' w h' ha')
  have := (opcodeMap_row r h).1
  rw [e, (opcodeMap_row r' h').1] at this
  exact (Option.some.inj this).symm

/-- A word that a row accepts decodes to that row's command. -/
theorem decode_of_accepts (r : OpRow) (w : Word) (h : r ∈ opcodeMap) (ha : r.accepts w = true) :
    decode w = .ok (r.operands w) := by
  match hf : opcodeMap.find? (·.accepts w) with
  | some r' =>
    have e := accepts_unique r r' w h (List.mem_of_find?_eq_some hf) ha
      (by simpa using List.find?_some hf)
    simp [decode, hf, e]
  | none => exact absurd ha (by simpa using List.find?_eq_none.mp hf r h)

/-- A word that decodes is accepted by the row of its command. -/
theorem accepts_of_decode (w : Word) (i : Instr) (h : decode w = .ok i) :
    ∃ r ∈ opcodeMap, r.accepts w = true ∧ i = r.operands w := by
  unfold decode at h
  split at h
  · rename_i r hf
    cases h
    exact ⟨r, List.mem_of_find?_eq_some hf, by simpa using List.find?_some hf, rfl⟩
  · split at h <;> cases h

/-- A word that no row accepts is illegal, and only such a word. -/
theorem decode_error_iff (w : Word) :
    (∃ e, decode w = .error e) ↔ ∀ r ∈ opcodeMap, r.accepts w = false := by
  constructor
  · rintro ⟨e, h⟩ r hr
    by_contra ha
    rw [decode_of_accepts r w hr (by simpa using ha)] at h
    cases h
  · intro h
    have : opcodeMap.find? (·.accepts w) = none :=
      List.find?_eq_none.mpr fun r hr => by simp [h r hr]
    unfold decode
    rw [this]
    dsimp only
    split <;> exact ⟨_, rfl⟩

/-! Fields of the encoded formats -/

theorem encodeF_idx (op : BitVec 4) (g : Group) (i : Nat) :
    (encodeF op g i).extractLsb' 8 8 = BitVec.ofNat 8 i := by
  apply BitVec.eq_of_getLsbD_eq
  intro k hk
  simp only [encodeF, BitVec.getLsbD_extractLsb', BitVec.getLsbD_append]
  interval_cases k <;> simp

theorem encodeF_grp (op : BitVec 4) (g : Group) (i : Nat) :
    (encodeF op g i).extractLsb' 4 2 = g.code := by
  apply BitVec.eq_of_getLsbD_eq
  intro k hk
  simp only [encodeF, BitVec.getLsbD_extractLsb', BitVec.getLsbD_append]
  interval_cases k <;> simp

theorem encodeF_mask (op : BitVec 4) (g : Group) (i : Nat) :
    encodeF op g i &&& 0xFFFF00CF#32 = op.setWidth 32 := by
  apply BitVec.eq_of_getLsbD_eq
  intro k hk
  simp only [encodeF, BitVec.getLsbD_and, BitVec.getLsbD_append]
  interval_cases k <;> simp

theorem encodeP_col (op : BitVec 4) (c r : Nat) :
    (encodeP op c r).extractLsb' 8 8 = BitVec.ofNat 8 c := by
  apply BitVec.eq_of_getLsbD_eq
  intro k hk
  simp only [encodeP, BitVec.getLsbD_extractLsb', BitVec.getLsbD_append]
  interval_cases k <;> simp

theorem encodeP_row (op : BitVec 4) (c r : Nat) :
    (encodeP op c r).extractLsb' 16 8 = BitVec.ofNat 8 r := by
  apply BitVec.eq_of_getLsbD_eq
  intro k hk
  simp only [encodeP, BitVec.getLsbD_extractLsb', BitVec.getLsbD_append]
  interval_cases k <;> simp

theorem encodeP_mask (op : BitVec 4) (c r : Nat) :
    encodeP op c r &&& 0xFF0000FF#32 = op.setWidth 32 := by
  apply BitVec.eq_of_getLsbD_eq
  intro k hk
  simp only [encodeP, BitVec.getLsbD_and, BitVec.getLsbD_append]
  interval_cases k <;> simp

theorem encodeFlag_flag (op : BitVec 4) (f : Bool) : (encodeFlag op f).getLsbD 4 = f := by
  simp only [encodeFlag, BitVec.getLsbD_append]; simp

theorem encodeFlag_mask (op : BitVec 4) (f : Bool) :
    encodeFlag op f &&& 0xFFFFFFEF#32 = op.setWidth 32 := by
  apply BitVec.eq_of_getLsbD_eq
  intro k hk
  simp only [encodeFlag, BitVec.getLsbD_and, BitVec.getLsbD_append]
  interval_cases k <;> simp

theorem encodeWide_operand (op : BitVec 4) (n : Nat) (f5 f4 : Bool) :
    (encodeWide op n f5 f4).extractLsb' 16 16 = BitVec.ofNat 16 n := by
  apply BitVec.eq_of_getLsbD_eq
  intro k hk
  simp only [encodeWide, BitVec.getLsbD_extractLsb', BitVec.getLsbD_append]
  interval_cases k <;> simp

theorem encodeWide_flag5 (op : BitVec 4) (n : Nat) (f5 f4 : Bool) :
    (encodeWide op n f5 f4).getLsbD 5 = f5 := by
  simp only [encodeWide, BitVec.getLsbD_append]; simp

theorem encodeWide_flag4 (op : BitVec 4) (n : Nat) (f5 f4 : Bool) :
    (encodeWide op n f5 f4).getLsbD 4 = f4 := by
  simp only [encodeWide, BitVec.getLsbD_append]; simp

/-- The low half of a wide word holds its flags and its opcode. -/
theorem encodeWide_mask (op : BitVec 4) (n : Nat) (f5 f4 : Bool) :
    encodeWide op n f5 f4 &&& 0x0000FFCF#32 = op.setWidth 32 ∧
      encodeWide op n f5 false &&& 0x0000FFDF#32 = op.setWidth 32 ∧
      encodeWide op n false f4 &&& 0x0000FFEF#32 = op.setWidth 32 ∧
      encodeWide op n false false &&& 0x0000FFFF#32 = op.setWidth 32 := by
  refine ⟨?_, ?_, ?_, ?_⟩ <;>
  · apply BitVec.eq_of_getLsbD_eq
    intro k hk
    simp only [encodeWide, BitVec.getLsbD_and, BitVec.getLsbD_append]
    interval_cases k <;> simp

/-! A word from its fields -/

theorem ofNat_wordBits (w : Word) (n hi lo : Nat) (h : hi + 1 - lo = n) :
    BitVec.ofNat n (wordBits w hi lo) = w.extractLsb' lo n := by
  subst h
  rw [wordBits_eq_extract]
  apply BitVec.eq_of_toNat_eq
  simp

theorem wordBits_lt (w : Word) (hi lo : Nat) : wordBits w hi lo < 2 ^ (hi + 1 - lo) :=
  Nat.mod_lt _ (by positivity)

theorem code_ofNum_wordBits (w : Word) :
    (Group.ofNum (wordBits w 5 4)).code = w.extractLsb' 4 2 := by
  rw [← ofNat_wordBits w 2 5 4 rfl]
  have h : wordBits w 5 4 < 4 := wordBits_lt w 5 4
  generalize wordBits w 5 4 = n at *
  interval_cases n <;> rfl

/-- The bit of a word that a mask keeps. -/
theorem getLsbD_of_mask {w m p : Word} (h : w &&& m = p) (k : Nat) :
    (w.getLsbD k && m.getLsbD k) = p.getLsbD k := by
  rw [← BitVec.getLsbD_and, h]

theorem encodeF_of_mask (op : BitVec 4) (w : Word) (h : w &&& 0xFFFF00CF#32 = op.setWidth 32) :
    encodeF op (Group.ofNum (wordBits w 5 4)) (wordBits w 15 8) = w := by
  rw [encodeF, code_ofNum_wordBits, ofNat_wordBits w 8 15 8 rfl]
  apply BitVec.eq_of_getLsbD_eq
  intro k hk
  have hb := getLsbD_of_mask h k
  simp only [BitVec.getLsbD_append, BitVec.getLsbD_extractLsb', BitVec.getLsbD_setWidth] at hb ⊢
  interval_cases k <;> simp at hb ⊢ <;> simp [hb]

theorem encodeP_of_mask (op : BitVec 4) (w : Word) (h : w &&& 0xFF0000FF#32 = op.setWidth 32) :
    encodeP op (wordBits w 15 8) (wordBits w 23 16) = w := by
  rw [encodeP, ofNat_wordBits w 8 15 8 rfl, ofNat_wordBits w 8 23 16 rfl]
  apply BitVec.eq_of_getLsbD_eq
  intro k hk
  have hb := getLsbD_of_mask h k
  simp only [BitVec.getLsbD_append, BitVec.getLsbD_extractLsb', BitVec.getLsbD_setWidth] at hb ⊢
  interval_cases k <;> simp at hb ⊢ <;> simp [hb]

theorem encodeFlag_of_mask (op : BitVec 4) (w : Word) (h : w &&& 0xFFFFFFEF#32 = op.setWidth 32) :
    encodeFlag op (wordFlag w 4) = w := by
  rw [encodeFlag, wordFlag]
  apply BitVec.eq_of_getLsbD_eq
  intro k hk
  have hb := getLsbD_of_mask h k
  simp only [BitVec.getLsbD_append, BitVec.getLsbD_setWidth] at hb ⊢
  interval_cases k <;> simp at hb ⊢ <;> simp [hb]

/-- A wide word is put together again from its operand, its flags and the opcode of its low half. -/
theorem encodeWide_of_mask (op : BitVec 4) (w : Word) (f5 f4 : Bool)
    (h5 : w.getLsbD 5 = f5) (h4 : w.getLsbD 4 = f4) (h : w &&& 0x0000FFCF#32 = op.setWidth 32) :
    encodeWide op (wordBits w 31 16) f5 f4 = w := by
  subst h5 h4
  rw [encodeWide, ofNat_wordBits w 16 31 16 rfl]
  apply BitVec.eq_of_getLsbD_eq
  intro k hk
  have hb := getLsbD_of_mask h k
  simp only [BitVec.getLsbD_append, BitVec.getLsbD_extractLsb', BitVec.getLsbD_setWidth] at hb ⊢
  interval_cases k <;> simp at hb ⊢ <;> simp [hb]

/-- A mask that also covers a flag gives the flag as the opcode's word has it. -/
theorem flag_of_mask (op : BitVec 4) (w m : Word) (k : Nat) (h : w &&& m = op.setWidth 32)
    (hm : m.getLsbD k = true) (hk : 4 ≤ k) : w.getLsbD k = false := by
  have hb := getLsbD_of_mask h k
  rw [hm, Bool.and_true, BitVec.getLsbD_setWidth, BitVec.getLsbD_of_ge op k hk, Bool.and_false] at hb
  exact hb

/-- A mask that covers more bits covers fewer. -/
theorem mask_of_mask (op : BitVec 4) (w m m' : Word) (h : w &&& m = op.setWidth 32)
    (hm : m &&& m' = m') (hop : op.setWidth 32 &&& m' = op.setWidth 32) :
    w &&& m' = op.setWidth 32 := by
  rw [← hm, ← BitVec.and_assoc, h, hop]

end Sys2Proof
end

