-- ==== Sys2Proof/Laws/Framer.lean ====
section
/-! SUPPORT. The framer: one step of the marker scan, what a chunk of a buffer holds, and the regions between
consecutive markers (spec 43_framer.md R170 to R174). -/

namespace Sys2Proof.Machine

/-- One byte of the scan. -/
theorem scanFrom_cons (p : Params) (b : Byte) (rest : List Byte) (pos : Nat) (run : Option Nat) :
    scanFrom p (b :: rest) pos run =
      if b = p.idleByte then scanFrom p rest (pos + 1) (some (run.getD pos))
      else
        match run with
        | none => scanFrom p rest (pos + 1) none
        | some s =>
          if isTerminator p b then ⟨s, pos + 1⟩ :: scanFrom p rest (pos + 1) none
          else scanFrom p rest (pos + 1) none := by
  cases run <;> rfl

/-- The idle byte is no terminator (R6). -/
theorem idleByte_not_terminator {p : Params} (h : p.Admissible) : isTerminator p p.idleByte = false := by
  obtain ⟨-, -, -, -, -, -, h1, h2⟩ := h
  simp only [isTerminator, Bool.and_eq_false_iff, decide_eq_false_iff_not, BitVec.le_def,
    BitVec.lt_def] at *
  omega

/-- A run of idle bytes only moves the scan on. -/
theorem scanFrom_idle (p : Params) (n : Nat) (rest : List Byte) (pos : Nat) (run : Option Nat) :
    scanFrom p (List.replicate (n + 1) p.idleByte ++ rest) pos run =
      scanFrom p rest (pos + n + 1) (some (run.getD pos)) := by
  induction n generalizing pos run with
  | zero => simp [scanFrom_cons]
  | succ n ih =>
    rw [List.replicate_succ, List.cons_append, scanFrom_cons, if_pos rfl, ih, Option.getD_some]
    congr 1; omega

/-- The five bytes a chunk holds. -/
theorem frameAt_iff (bytes : List Byte) (j : Nat) (f : Frame) :
    frameAt bytes j = some f ↔ j + 5 ≤ bytes.length ∧ f.toList = (bytes.drop j).take 5 := by
  unfold frameAt
  have hl : (bytes.drop j).length = bytes.length - j := List.length_drop
  generalize bytes.drop j = l at *
  match l with
  | b0 :: b1 :: b2 :: b3 :: b4 :: r =>
    simp only [List.length_cons] at hl
    simp only [Option.some.injEq, Frame.toList, List.take_succ_cons, List.take_zero, List.cons.injEq,
      and_true]
    constructor
    · rintro rfl; exact ⟨by omega, rfl, rfl, rfl, rfl, rfl⟩
    · rintro ⟨-, rfl, rfl, rfl, rfl, rfl⟩; rfl
  | [] | [_] | [_, _] | [_, _, _] | [_, _, _, _] =>
    simp only [List.length_cons, List.length_nil] at hl
    simp [Frame.toList]

/-- A chunk inside the buffer is a frame. -/
theorem frameAt_some {bytes : List Byte} {j : Nat} (h : j + 5 ≤ bytes.length) :
    ∃ f, frameAt bytes j = some f := by
  unfold frameAt
  have hl : (bytes.drop j).length = bytes.length - j := List.length_drop
  generalize bytes.drop j = l at *
  match l with
  | b0 :: b1 :: b2 :: b3 :: b4 :: r => exact ⟨_, rfl⟩
  | [] | [_] | [_, _] | [_, _, _] | [_, _, _, _] =>
    simp only [List.length_cons, List.length_nil] at hl; omega

/-- The frames after a marker are those of the regions between consecutive markers. -/
theorem extractAfter_eq (bytes : List Byte) (l : List Marker) (prev : Marker) :
    extractAfter bytes prev l =
      ((prev :: l).zip l).flatMap (fun mm => regionFrames bytes mm.1 mm.2) := by
  induction l generalizing prev with
  | nil => rfl
  | cons a l ih => rw [extractAfter, ih a]; rfl

end Sys2Proof.Machine
end

