-- ==== Sys2Proof/Laws/PerInstr.lean ====
section
/-! SUPPORT. The family EncodesIntoItsRow: the word of a command is accepted by the row of the opcode map
that bears its mnemonic (R79). -/

namespace Sys2Proof.Laws.EncodesIntoItsRow

/-- The word of the command is accepted by the row of its mnemonic. -/
def Statement (i : Instr) : Prop :=
  ∃ r ∈ opcodeMap, r.mnemonic = i.mnemonic ∧ r.accepts (encode i) = true

theorem of_index (i : Instr) (k : Nat) (r : OpRow) (h : opcodeMap[k]? = some r)
    (hn : r.mnemonic = i.mnemonic) (ha : encode i &&& r.mask = r.pattern) : Statement i :=
  ⟨r, List.mem_of_getElem? h, hn, (OpRow.accepts_iff r _).mpr ha⟩

theorem nop : Statement .nop := of_index _ 0 _ rfl rfl (by decide)

theorem fieldWr (g : Group) (i : Nat) : Statement (.fieldWr g i) :=
  of_index _ 1 _ rfl rfl (encodeF_mask 1#4 g i)

theorem fieldRd (g : Group) (i : Nat) : Statement (.fieldRd g i) :=
  of_index _ 2 _ rfl rfl (encodeF_mask 2#4 g i)

theorem pixelEn (c r : Nat) : Statement (.pixelEn c r) :=
  of_index _ 3 _ rfl rfl (encodeP_mask 3#4 c r)

theorem build (m : Bool) : Statement (.build m) := of_index _ 4 _ rfl rfl (encodeFlag_mask 4#4 m)

theorem waveWr (k : Nat) (l : Bool) : Statement (.waveWr k l) :=
  of_index _ 5 _ rfl rfl (encodeWide_mask 5#4 k l false).2.1

theorem waveRb (k : Nat) : Statement (.waveRb k) :=
  of_index _ 6 _ rfl rfl (encodeWide_mask 6#4 k false false).2.2.2

theorem configWr (k : Nat) (l m : Bool) : Statement (.configWr k l m) :=
  of_index _ 7 _ rfl rfl (encodeWide_mask 7#4 k l m).1

theorem configRb (k : Nat) (m : Bool) : Statement (.configRb k m) :=
  of_index _ 8 _ rfl rfl (encodeWide_mask 8#4 k false m).2.2.1

theorem frame (v : Bool) : Statement (.frame v) := of_index _ 9 _ rfl rfl (encodeFlag_mask 9#4 v)

theorem decode (period : Nat) : Statement (.decode period) :=
  of_index _ 10 _ rfl rfl (encodeWide_mask 10#4 period false false).2.2.2

theorem readout (period : Nat) (v : Bool) : Statement (.readout period v) :=
  of_index _ 11 _ rfl rfl (encodeWide_mask 11#4 period false v).2.2.1

end Sys2Proof.Laws.EncodesIntoItsRow
end

