-- ==== Sys2Proof/Laws/Sequences.lean ====
section
/-! SUPPORT. Sequences: pieces of one length put end to end, and the first or no field out of range. -/

namespace Sys2Proof

/-- Pieces of length `n` put end to end. -/
theorem length_flatMap_const {α β : Type} (f : α → List β) (n : Nat) (h : ∀ a, (f a).length = n)
    (l : List α) : (l.flatMap f).length = l.length * n := by
  induction l with
  | nil => simp
  | cons a l ih => simp [ih, h]; ring

/-- Where an element of piece `j` stands in pieces of length `n` put end to end. -/
theorem getElem?_flatMap_const {α β : Type} (f : α → List β) (n : Nat) (h : ∀ a, (f a).length = n)
    (l : List α) (j q : Nat) (hq : q < n) :
    (l.flatMap f)[n * j + q]? = (l[j]?).bind (fun a => (f a)[q]?) := by
  induction l generalizing j with
  | nil => simp
  | cons a l ih =>
    rw [List.flatMap_cons]
    cases j with
    | zero => rw [List.getElem?_append_left (by rw [h]; omega)]; simp
    | succ j =>
      rw [List.getElem?_append_right (by rw [h]; nlinarith), h,
        show n * (j + 1) + q - n = n * j + q by rw [Nat.mul_succ]; omega, ih]
      simp

/-- Every slot fits the width when the slot at every index does. -/
theorem all_fitsWidth (l : List Slot) (w : Nat) (hb : ∀ j < l.length, (l.getD j 0).toNat < 2 ^ w) :
    l.all (fitsWidth w) = true := by
  rw [List.all_eq_true]
  intro x hx
  obtain ⟨j, hj, rfl⟩ := List.getElem_of_mem hx
  have := hb j hj
  rw [List.getD_eq_getElem _ _ hj] at this
  simpa [fitsWidth] using this

/-- The slot at every index fits the width when every slot does. -/
theorem fits_of_all (l : List Slot) (w i : Nat) (h : l.all (fitsWidth w) = true) (hi : i < l.length) :
    (l.getD i 0).toNat < 2 ^ w := by
  rw [List.getD_eq_getElem _ _ hi]
  simpa [fitsWidth] using List.all_eq_true.1 h _ (List.getElem_mem hi)

/-- The index of the first slot that does not fit the width. -/
theorem findIdx?_first (l : List Slot) (w i : Nat) (hi : i < l.length)
    (h : 2 ^ w ≤ (l.getD i 0).toNat) (hb : ∀ j < i, (l.getD j 0).toNat < 2 ^ w) :
    l.findIdx? (fun v => !fitsWidth w v) = some i := by
  rw [List.findIdx?_eq_some_iff_getElem]
  refine ⟨hi, ?_, ?_⟩
  · rw [List.getD_eq_getElem _ _ hi] at h; simp [fitsWidth]; omega
  · intro j hj
    have := hb j hj
    rw [List.getD_eq_getElem _ _ (by omega)] at this; simp [fitsWidth]; omega

end Sys2Proof
end

