-- ==== Sys2Proof/Laws/Serializer.lean ====
section
/-! SUPPORT. The serializer: how many bits a field, a group and a store give, and which bit stands where in
a group (spec 41_serializer.md R120 to R124). -/

namespace Sys2Proof.Machine

@[simp] theorem length_msbFirst (w : Nat) (v : Slot) : (msbFirst w v).length = w := by
  induction w with
  | zero => rfl
  | succ w ih => simp [msbFirst, ih]

/-- Bit `k` of a field of width `w` is `w - 1 - k` places in. -/
theorem getElem?_msbFirst (w : Nat) (v : Slot) (k : Nat) (h : k < w) :
    (msbFirst w v)[w - 1 - k]? = some (v.getLsbD k) := by
  induction w with
  | zero => omega
  | succ w ih =>
    by_cases e : k = w
    · subst e; simp [msbFirst]
    · rw [msbFirst, show w + 1 - 1 - k = (w - 1 - k) + 1 by omega, List.getElem?_cons_succ,
        ih (by omega)]

theorem length_groupBits (cfg : Store) (g : Group) :
    (groupBits cfg g).length = (cfg.group g).length * g.width :=
  length_flatMap_const _ _ (length_msbFirst _) _

/-- Where bit `k` of field `i` stands in its group. -/
theorem getElem?_groupBits (cfg : Store) (g : Group) (i k : Nat) (hi : i < (cfg.group g).length)
    (hk : k < g.width) :
    (groupBits cfg g)[g.width * i + (g.width - 1 - k)]? = some ((readField cfg g i).getLsbD k) := by
  unfold groupBits
  rw [getElem?_flatMap_const _ _ (length_msbFirst _) _ _ _ (by omega), List.getElem?_eq_getElem hi,
    Option.bind_some, getElem?_msbFirst _ _ _ hk, readField, List.getD_eq_getElem _ _ hi]

theorem length_concatBits {p : Params} {cfg : Store} (h : cfg.Shaped p) :
    (concatBits cfg).length = p.nbits := by
  simp only [concatBits, List.length_append, length_groupBits, length_group_of_shaped h]
  rfl

/-- A store is in range when each of its fields is. -/
theorem inRange_iff (cfg : Store) :
    cfg.InRange ↔ ∀ g i, i < (cfg.group g).length → (readField cfg g i).toNat < 2 ^ g.width := by
  constructor
  · rintro ⟨a, b, c, d⟩ g i hi
    cases g
    · exact fits_of_all _ _ _ a hi
    · exact fits_of_all _ _ _ b hi
    · exact fits_of_all _ _ _ c hi
    · exact fits_of_all _ _ _ d hi
  · intro h
    exact ⟨all_fitsWidth _ _ (h .digital), all_fitsWidth _ _ (h .bias), all_fitsWidth _ _ (h .dacs),
      all_fitsWidth _ _ (h .columns)⟩

end Sys2Proof.Machine
end

