-- ==== Sys2Proof/Laws/Waveform.lean ====
section
/-! SUPPORT. The waveform encoder: the lengths of the undivided waveforms, and the bytes that can occur in
them (spec 42_waveform.md R140 to R145). -/

namespace Sys2Proof.Machine

@[simp] theorem length_microPattern (p : Params) (b : Bool) : (microPattern p b).length = 5 := rfl

theorem length_rawWrite (p : Params) (bits : List Bool) (l : Bool) :
    (rawWrite p bits l).length = 5 * bits.length + fixedOverhead l := by
  unfold rawWrite
  rw [List.length_append, length_flatMap_const _ 5 (length_microPattern p), Nat.mul_comm]
  cases l <;> rfl

theorem length_rawReadBack (p : Params) (bits : List Bool) :
    (rawReadBack p bits).length = (bits.length + 1) * 5 := by
  unfold rawReadBack
  rw [List.length_append, length_flatMap_const _ 5 (fun _ => rfl)]
  simp [Frame.toList]; ring

/-- Clock division brings in no new byte. -/
theorem mem_of_mem_divideClock {bytes : List Byte} {k : Nat} {x : Byte} (h : x ∈ divideClock bytes k) :
    x ∈ bytes := by
  unfold divideClock at h
  rw [List.mem_flatMap] at h
  obtain ⟨a, ha, hx⟩ := h
  exact (List.mem_replicate.1 hx).2 ▸ ha

/-- The bytes of an undivided write-mode waveform. -/
theorem mem_rawWrite {p : Params} {bits : List Bool} {l : Bool} {x : Byte} (h : x ∈ rawWrite p bits l) :
    x ∈ [0#8, p.sin, p.sin ||| p.clkA, 0#8 ||| p.clkA, p.sin ||| p.clkB, 0#8 ||| p.clkB, p.load] := by
  unfold rawWrite at h
  rw [List.mem_append] at h
  rcases h with h | h
  · rw [List.mem_flatMap] at h
    obtain ⟨b, -, hb⟩ := h
    cases b <;>
      simp only [microPattern, List.mem_cons, List.not_mem_nil, or_false, if_true, Bool.false_eq_true,
        if_false] at hb <;>
      rcases hb with rfl | rfl | rfl | rfl | rfl <;> simp
  · cases l
    · simp at h
    · simp only [if_true, loadPulse, List.mem_cons, List.not_mem_nil, or_false] at h
      rcases h with rfl | rfl | rfl <;> simp

/-- Two lines share no bit. -/
theorem oneHotBytes_disjoint {a b : Byte} (ha : a ∈ oneHotBytes) (hb : b ∈ oneHotBytes) (h : a ≠ b) :
    a &&& b = 0#8 := by
  simp only [oneHotBytes, List.mem_cons, List.not_mem_nil, or_false] at ha hb
  rcases ha with rfl | rfl | rfl | rfl | rfl | rfl | rfl | rfl <;>
    rcases hb with rfl | rfl | rfl | rfl | rfl | rfl | rfl | rfl <;>
    first
    | rfl
    | exact absurd rfl h

end Sys2Proof.Machine
end

