-- ==== Sys2Proof/Tests/Slice0.lean ====
section
/-! SUPPORT. Tests. Words, states and expected results come from the spec's 95_test_vectors.md (vector names
as there, parameter set TP), or are worked out by hand from the rule named. The theorems `witness_…` show, for
each statement with hypotheses, concrete values that meet all of them together. -/

namespace Sys2Proof.Tests

open Sys2Proof.Machine

/-! WellFormed: an ill-formed term for each check -/

theorem test_ill_formed_fieldWr : (Instr.fieldWr .dacs 256).wellFormed = false := by decide
theorem test_ill_formed_fieldRd : (Instr.fieldRd .bias 256).wellFormed = false := by decide
theorem test_ill_formed_pixelEn_column : (Instr.pixelEn 256 0).wellFormed = false := by decide
theorem test_ill_formed_pixelEn_row : (Instr.pixelEn 0 256).wellFormed = false := by decide
theorem test_ill_formed_waveWr : (Instr.waveWr 65536 true).wellFormed = false := by decide
theorem test_ill_formed_waveRb : (Instr.waveRb 65536).wellFormed = false := by decide
theorem test_ill_formed_configWr : (Instr.configWr 65536 true true).wellFormed = false := by decide
theorem test_ill_formed_configRb : (Instr.configRb 65536 true).wellFormed = false := by decide
theorem test_ill_formed_decode : (Instr.decode 65536).wellFormed = false := by decide
theorem test_ill_formed_readout : (Instr.readout 65536 true).wellFormed = false := by decide

/-! Decoding, on words written out from formats F, P, B, W, S and D (R72 to R77) and 95, section 2.1 -/

theorem test_decode_nop : decode 0x00000000#32 = .ok .nop := by decide

/-- `0000000000000000 00000001 00 00 0001`: group 0, index 1 (A1). -/
theorem test_decode_fieldWr :
    decode 0b00000000000000000000000100000001#32 = .ok (.fieldWr .digital 1) := by decide

/-- `0000000000000000 00000000 00 11 0010`: group 3, index 0 (P1). -/
theorem test_decode_fieldRd :
    decode 0b00000000000000000000000000110010#32 = .ok (.fieldRd .columns 0) := by decide

/-- `00000000 00000100 00000000 0000 0011`: row 4, column 0 (A6). -/
theorem test_decode_pixelEn :
    decode 0b00000000000001000000000000000011#32 = .ok (.pixelEn 0 4) := by decide

theorem test_decode_build : decode 0x00000014#32 = .ok (.build true) := by decide
theorem test_decode_waveWr : decode 0xFFFF0005#32 = .ok (.waveWr 65535 false) := by decide
theorem test_decode_waveWr_load : decode 0x00020025#32 = .ok (.waveWr 2 true) := by decide
theorem test_decode_waveRb : decode 0x00010006#32 = .ok (.waveRb 1) := by decide
theorem test_decode_configWr : decode 0x00010027#32 = .ok (.configWr 1 true false) := by decide
theorem test_decode_configWr_msb : decode 0x00010017#32 = .ok (.configWr 1 false true) := by decide
theorem test_decode_configRb : decode 0x00020018#32 = .ok (.configRb 2 true) := by decide
theorem test_decode_frame : decode 0x00000019#32 = .ok (.frame true) := by decide
theorem test_decode_decode : decode 0x000A000A#32 = .ok (.decode 10) := by decide
theorem test_decode_readout : decode 0x000A001B#32 = .ok (.readout 10 true) := by decide

/-- The illegal words of 95, section 2.1. -/
theorem test_decode_illegal :
    [0x00000010, 0x0000000C, 0x00000041, 0x80000001, 0x00010015, 0x00010026, 0x000A001A,
      0xFFFFFFFF].all (fun w => decodeTableWord 32 w == none) = true := by decide

/-- The words of the programs P1 to P4. -/
theorem test_encode_words :
    [encode (.fieldWr .dacs 0), encode (.pixelEn 0 35), encode (.configRb 2 false), encode (.waveWr 2 true),
      encode (.readout 10 true), encode (.configWr 0 true false)] =
    [0x00000021#32, 0x00230003#32, 0x00020008#32, 0x00020025#32, 0x000A001B#32, 0x00000027#32] := by decide

/-- No word has two rows: where two rows both require a bit, some such bit tells them apart. -/
theorem test_rows_disjoint :
    opcodeMap.Pairwise (fun r r' => r.pattern &&& r'.mask ≠ r'.pattern &&& r.mask) := by decide

/-! One command under TP -/

/-- The block under TP, with the store `cfg` and the input ports `inp`. -/
def tp (cfg : Store) (inp : Input) : State :=
  { State.afterReset Params.tp [] with cfg := cfg, inp := inp }

/-- The reset store of TP. -/
def zeros : Store := Params.tp.cfgDefault

/-- The store `d0,d1; bias; dacs; columns`. -/
def store (d0 d1 b dac col : Slot) : Store := ⟨[d0, d1], [b], [dac], [col]⟩

/-- The state after a command that completes. -/
def after (i : Instr) (s : State) : State :=
  match exec i s with
  | .next t => t
  | _ => s

/-- The response of a command. -/
def resp (i : Instr) (s : State) : Response := (after i s).out.getD Response.empty

/-- Bytes on `in.bytes`. -/
def onBytes (bytes : List Byte) : Input := { Input.idle with bytes := bytes }

/-- A9. -/
theorem test_nop : (after .nop { tp zeros Input.idle with status := 0x5#32 }).status = 0#32 := by decide

/-- A4, the write. -/
theorem test_fieldWr_stores_whole :
    (after (.fieldWr .dacs 0) (tp zeros { Input.idle with din := 0xFFFFFFFFFFFFFFFF })).cfg =
      store 0 0 0 0xFFFFFFFFFFFFFFFF 0 := by decide

/-- A2. -/
theorem test_fieldWr_index :
    let t := after (.fieldWr .digital 2) (tp zeros { Input.idle with din := 1 })
    t.status = 0x3#32 ∧ t.cfg = zeros := by decide

/-- A4, the read. -/
theorem test_fieldRd :
    (resp (.fieldRd .dacs 0) (tp (store 0 0 0 0xFFFFFFFFFFFFFFFF 0) Input.idle)).dout =
      0xFFFFFFFFFFFFFFFF := by decide

/-- A7. -/
theorem test_pixelEn :
    (after (.pixelEn 0 34) (tp (store 0 0 0 0 0x200000001F) Input.idle)).cfg =
      store 0 0 0 0 0x2800000001 := by decide +kernel

/-- A8. -/
theorem test_pixelEn_keeps_wide_bit :
    (after (.pixelEn 0 0) (tp (store 0 0 0 0 0x10000000000) Input.idle)).cfg =
      store 0 0 0 0 0x10000000002 := by decide +kernel

/-- A bit string, index 0 first. -/
def bits (t : String) : List Bool := t.toList.map (· == '1')

/-- S2. -/
theorem test_build_msb :
    (resp (.build true) (tp (store 1 0 1 0x2A 0x21) Input.idle)).bv =
      bits "10110101000000000000000000000000000000000100001" := by decide +kernel

/-- S4. -/
theorem test_build_first_overflow :
    (resp (.build false) (tp (store 0 2 0 64 0) Input.idle)).status = 0x101#32 := by decide +kernel

/-- W3. -/
theorem test_waveWr_load :
    let r := resp (.waveWr 1 true) (tp zeros { Input.idle with bits := [true] })
    r.wave = [0x04, 0x06, 0x04, 0x05, 0x04, 0x00, 0x08, 0x00] ∧ r.explen = 8 := by decide +kernel

/-- W4. -/
theorem test_waveWr_divided :
    (resp (.waveWr 2 false) (tp zeros { Input.idle with bits := [true, false] })).wave =
      [0x04, 0x04, 0x06, 0x06, 0x04, 0x04, 0x05, 0x05, 0x04, 0x04, 0x00, 0x00, 0x02, 0x02, 0x00, 0x00,
        0x01, 0x01, 0x00, 0x00] := by decide +kernel

/-- W8, for the bit 1. -/
theorem test_waveRb :
    let r := resp (.waveRb 1) (tp zeros { Input.idle with bits := [true] })
    r.wave = [0xA0, 0xA1, 0xA2, 0xA3, 0xA4, 0x00, 0x02, 0x00, 0x01, 0x00] ∧ r.explen = 10 := by
  decide +kernel

/-- P4, step 5. -/
theorem test_configWr :
    (resp (.configWr 1 true false) (tp (store 0 0 0 63 0) Input.idle)).wave =
      (List.replicate 38 [0x00, 0x02, 0x00, 0x01, 0x00]).flatten ++
        (List.replicate 6 [0x04, 0x06, 0x04, 0x05, 0x04]).flatten ++
        (List.replicate 3 [0x00, 0x02, 0x00, 0x01, 0x00]).flatten ++ [0x00, 0x08, 0x00] := by
  decide +kernel

/-- W11: the divider is checked first. -/
theorem test_configWr_divider_first :
    (resp (.configWr 0 true false) (tp (store 0 0 0 64 0) Input.idle)).status = 0x2#32 := by decide

/-- W13, its length and its first bytes. -/
theorem test_configRb :
    let r := resp (.configRb 2 false) (tp zeros Input.idle)
    r.explen = 480 ∧ r.wave.length = 480 ∧
      r.wave.take 12 = [0xA0, 0xA0, 0xA1, 0xA1, 0xA2, 0xA2, 0xA3, 0xA3, 0xA4, 0xA4, 0x00, 0x00] := by
  decide +kernel

/-- The buffer of F1. -/
def f1 : List Byte :=
  [0xBC, 0xBC, 0x01, 0x04, 0x11, 0x22, 0x33, 0x44, 0x04, 0x55, 0x66, 0x07, 0x89, 0xBC, 0x02]

/-- F11: the second frame is misframed. -/
theorem test_frame_false_marker :
    (resp (.frame false) (tp zeros (onBytes
      [0xBC, 0x01, 0x04, 0x11, 0x22, 0x33, 0xBC, 0x04, 0x55, 0x66, 0x07, 0x89, 0xBC, 0x02]))).frames =
      [⟨0x04, 0x11, 0x22, 0x33, 0xBC⟩, ⟨0x55, 0x66, 0x07, 0x89, 0xBC⟩] := by decide +kernel

/-- F16. -/
theorem test_frame_reversed :
    (resp (.frame true) (tp zeros (onBytes
      [0x3D, 0x3D, 0x80, 0x20, 0x88, 0x44, 0xCC, 0x22, 0x20, 0xAA, 0x66, 0xE0, 0x91, 0x3D,
        0x40]))).frames =
      [⟨0x04, 0x11, 0x22, 0x33, 0x44⟩, ⟨0x04, 0x55, 0x66, 0x07, 0x89⟩] := by decide +kernel

/-- The markers of F10. -/
theorem test_scan_markers :
    scanMarkers Params.tp [0xBC, 0x01, 0x04, 0xBC, 0x03, 0x33, 0x44, 0xBC, 0x02] =
      [⟨0, 2⟩, ⟨3, 5⟩, ⟨7, 9⟩] := by decide +kernel

/-- DV3. -/
theorem test_decode_extreme :
    (resp (.decode 65535) (tp zeros
      { Input.idle with frames := [⟨0xFF, 0xFF, 0xFF, 0xFF, 0xFF⟩] })).records =
      [⟨31, 7, 63, true, 255, 15, 255, 4095, 268365825, false⟩] := by decide +kernel

/-- DV5. -/
theorem test_decode_ignored_bits :
    (resp (.decode 10) (tp zeros
      { Input.idle with frames := [⟨0x04, 0xBF, 0x7F, 0xF3, 0x12⟩] })).records =
      [⟨0, 4, 63, true, 127, 3, 18, 786, 7860, true⟩] := by decide +kernel

/-- DV10. -/
theorem test_readout :
    (resp (.readout 10 false) (tp zeros (onBytes f1))).records =
      [⟨0, 4, 0x11, false, 0x22, 3, 0x44, 836, 8360, true⟩,
        ⟨0, 4, 0x15, false, 0x66, 7, 0x89, 1929, 19290, true⟩] := by decide +kernel

/-- P3. -/
theorem test_readout_reversed :
    (resp (.readout 10 true) (tp zeros (onBytes
      [0x3D, 0x3D, 0x3D, 0xC0, 0x20, 0x50, 0x34, 0x00, 0x26, 0x20, 0xD1, 0x01, 0x80, 0x13, 0x3D, 0x3D,
        0x00, 0x3D, 0x3D, 0x3D]))).records =
      [⟨0, 4, 10, false, 44, 0, 100, 100, 1000, true⟩, ⟨0, 4, 11, true, 128, 1, 200, 456, 4560, true⟩] := by
  decide +kernel

/-! Steps under TP -/

/-- The block under TP, with the store `cfg`, where the host is about to do `host`. -/
def tpHost (cfg : Store) (host : List HostEvent) : State :=
  { State.afterReset Params.tp host with cfg := cfg }

/-- The state after a step that answers one. -/
def stepped (s : State) : State :=
  match step s with
  | .next t => t
  | _ => s

/-- The host presents a word. -/
def word (w : Word) : HostEvent := .command { Input.idle with word := w }

/-- An illegal word: STATUS 4, `cfg` unchanged (95, section 2.1). -/
theorem test_step_illegal :
    let t := stepped (tpHost (store 1 0 0 0 0) [word 0x10#32])
    t.status = 0x4#32 ∧ t.cfg = store 1 0 0 0 0 ∧ t.host = [] := by decide +kernel

/-- Reset clears STATUS and the store (R240). -/
theorem test_step_reset :
    let t := stepped { tpHost (store 1 0 0 0 0) [.reset] with status := 0x3#32 }
    t.status = 0#32 ∧ t.cfg = zeros := by decide +kernel

/-- A table word runs as the first command after reset. -/
theorem test_withFetchWord :
    step (State.reset.withFetchWord 32 0x00000014) =
      exec (.build true) { State.reset with inp := { Input.idle with word := 0x14#32 } } := rfl

/-- The boot order (R243): reset, fields, CONFIG_WR, then readout; and readout too early. -/
theorem test_boot_order :
    bootOrdered [.reset, word 0x00000021#32, word 0x00010027#32, word 0x000A000B#32] = true ∧
      bootOrdered [.reset, word 0x000A000B#32] = false := by decide +kernel

/-! Witnesses: encoding -/

theorem witness_DecodeOfEncode :
    (Instr.configWr 65535 true true).WellFormed ∧ (Instr.fieldWr .columns 255).WellFormed := by decide

theorem witness_EncodeOfDecode : decode 0xFFFF0005#32 = .ok (.waveWr 65535 false) := by decide

/-- A word of the first row, a word of the last, and a word of none. -/
theorem witness_DecodeFollowsOpcodeMap :
    (∃ r ∈ opcodeMap, 0x00000000#32 &&& r.mask = r.pattern) ∧
      (∃ r ∈ opcodeMap, 0xFFFF001B#32 &&& r.mask = r.pattern) ∧
      ∀ r ∈ opcodeMap, 0x0000000C#32 &&& r.mask ≠ r.pattern := by decide

theorem witness_IllegalWordsRaiseIllegal :
    (tpHost zeros [word 0xC#32]).host = .command { Input.idle with word := 0xC#32 } :: [] ∧
      decode 0xC#32 = .error .reservedOpcode ∧ decode 0x10#32 = .error .reservedBit := by decide

/-! Witnesses: the machine -/

theorem witness_StepRunsDecodedCommand :
    (tpHost zeros [word 0x14#32]).host = .command { Input.idle with word := 0x14#32 } :: [] ∧
      decode 0x14#32 = .ok (.build true) := by decide

theorem witness_WaitsWithoutCommand : (tpHost zeros []).host = [] := by decide

/-- The last field of group 0. -/
theorem witness_ResetRestoresDefaults :
    (tpHost zeros [.reset]).host = .reset :: [] ∧ 1 < (tpHost zeros [.reset]).params.count .digital := by
  decide

theorem witness_ResetDuringCommandRefused :
    (tpHost zeros [.resetDuringCommand]).host = .resetDuringCommand :: [] := by decide

theorem witness_EarlyCommandRefused :
    (tpHost zeros [.commandEarly Input.idle]).host = .commandEarly Input.idle :: [] := by decide

theorem witness_ResetValues : Params.tp.Admissible ∧ 0 < Params.tp.count .columns := by decide +kernel

/-- A state under TP with the response of an error pending. -/
def tpErr : State :=
  { tpHost (store 0 0 0 64 0) [word 0x4#32] with
    status := 0x2#32, out := some { Response.empty with status := 0x2#32 } }

theorem witness_StepKeepsInv : tpErr.Inv ∧ step tpErr = .next (stepped tpErr) :=
  ⟨⟨Params.tp_admissible, by decide, by decide, by intro r h; cases h; rfl⟩, rfl⟩

theorem witness_DisciplinedHostNeverRefused :
    (tpHost zeros [.reset, word 0x21#32, word 0x10#32, word 0x4#32]).hostDisciplined = true := by decide

/-! Witnesses: rules of the whole block -/

theorem witness_ErrorsArePrecise :
    exec (.fieldWr .digital 2) (tp zeros Input.idle) =
        .next (after (.fieldWr .digital 2) (tp zeros Input.idle)) ∧
      statusCode (after (.fieldWr .digital 2) (tp zeros Input.idle)).status ≠ 0 :=
  ⟨rfl, by decide⟩

theorem witness_ErrorPriority :
    (tpHost (store 0 0 0 64 0) [word 0x27#32]).host = .command { Input.idle with word := 0x27#32 } :: [] ∧
      step (tpHost (store 0 0 0 64 0) [word 0x27#32]) =
        .next (stepped (tpHost (store 0 0 0 64 0) [word 0x27#32])) :=
  ⟨rfl, rfl⟩

/-- A word for each clause of the order, at the last operand that completes and the first that does not
(A1, A2, A5, W5, W11, W14, DV8). -/
theorem witness_ErrorPriority_clauses :
    ([0x00000101, 0x00000201, 0x00000102, 0x00000202, 0x00220003, 0x00230003, 0x00000103, 0x00000004,
        0x00010005, 0x00000005, 0x00010006, 0x00000006, 0x00010027, 0x00000027, 0x00010008, 0x00000008,
        0x00000009, 0x0001000A, 0x0000000A, 0x0001000B, 0x0000000B, 0x00000000, 0x00000010].map
      (fun w => (stepped (tpHost (store 0 0 0 64 0) [word (BitVec.ofNat 32 w)])).status)) =
    [0, 3, 0, 3, 0, 3, 3, 0x21, 0, 2, 0, 2, 0x21, 2, 0x21, 2, 0, 0, 5, 0, 5, 0, 4] := by decide +kernel

/-- Each of the five stream commands completes. -/
theorem witness_StreamCommandsIgnoreStore :
    exec (.frame true) (tp zeros (onBytes f1)) = .next (after (.frame true) (tp zeros (onBytes f1))) ∧
      exec (.decode 10) (tp zeros Input.idle) = .next (after (.decode 10) (tp zeros Input.idle)) ∧
      exec (.readout 10 true) (tp zeros Input.idle) =
        .next (after (.readout 10 true) (tp zeros Input.idle)) ∧
      exec (.waveWr 1 true) (tp zeros Input.idle) = .next (after (.waveWr 1 true) (tp zeros Input.idle)) ∧
      exec (.waveRb 1) (tp zeros Input.idle) = .next (after (.waveRb 1) (tp zeros Input.idle)) :=
  ⟨rfl, rfl, rfl, rfl, rfl⟩

/-- PIXEL_EN changes a store, and so does reset. -/
theorem witness_OnlyWritesChangeStore :
    step (tpHost zeros [word 0x00040003#32]) = .next (stepped (tpHost zeros [word 0x00040003#32])) ∧
      (stepped (tpHost zeros [word 0x00040003#32])).cfg ≠ zeros ∧
      (stepped (tpHost (store 1 0 0 0 0) [.reset])).cfg ≠ store 1 0 0 0 0 :=
  ⟨rfl, by decide +kernel, by decide +kernel⟩

/-- Each of the four reading commands completes. -/
theorem witness_ReadingCommandsIdempotent :
    exec (.fieldRd .dacs 0) (tp zeros Input.idle) = .next (after (.fieldRd .dacs 0) (tp zeros Input.idle)) ∧
      exec (.build true) (tp zeros Input.idle) = .next (after (.build true) (tp zeros Input.idle)) ∧
      exec (.configWr 1 true true) (tp zeros Input.idle) =
        .next (after (.configWr 1 true true) (tp zeros Input.idle)) ∧
      exec (.configRb 1 true) (tp zeros Input.idle) =
        .next (after (.configRb 1 true) (tp zeros Input.idle)) :=
  ⟨rfl, rfl, rfl, rfl⟩

theorem witness_UnsetPortsEmpty :
    exec (.frame false) (tp zeros (onBytes f1)) = .next (after (.frame false) (tp zeros (onBytes f1))) ∧
      (after (.frame false) (tp zeros (onBytes f1))).out =
        some (resp (.frame false) (tp zeros (onBytes f1))) :=
  ⟨rfl, rfl⟩

/-- FRAME with another word, operand, bit sequence and frame sequence on the ports. -/
theorem witness_UnreadPortsIgnored :
    exec (.frame true) (tp zeros (onBytes f1)) = .next (after (.frame true) (tp zeros (onBytes f1))) ∧
      let inp : Input := ⟨0x9#32, 7, [true], f1, [⟨1, 2, 3, 4, 5⟩]⟩
      inp.bytes = (tp zeros (onBytes f1)).inp.bytes ∧ (Instr.frame true).mnemonic ≠ "FIELD_WR" ∧
        (Instr.frame true).mnemonic ∉ ["WAVE_WR", "WAVE_RB"] ∧ (Instr.frame true).mnemonic ≠ "DECODE" :=
  ⟨rfl, rfl, by decide, by decide, by decide⟩

/-! Witnesses: configuration access -/

theorem witness_NopOnlyClearsStatus : 0x10#32 &&& 0xF#32 = 0 ∧ 0x10#32 ≠ 0 := by decide

/-- The last field of group 0, and the first index that has none. -/
theorem witness_FieldWrStoresWholeSlot :
    (tp zeros Input.idle).cfg.Shaped (tp zeros Input.idle).params ∧
      1 < (tp zeros Input.idle).params.count .digital ∧ (tp zeros Input.idle).params.count .digital ≤ 2 := by
  decide

theorem witness_FieldRdAnswersSlot :
    0 < (tp zeros Input.idle).params.count .columns ∧ (tp zeros Input.idle).params.count .columns ≤ 1 := by
  decide

/-- The least value too wide for a DAC field. -/
theorem witness_WideValueStoredThenOverflows :
    (tp zeros { Input.idle with din := 64 }).cfg.Shaped (tp zeros { Input.idle with din := 64 }).params ∧
      0 < (tp zeros { Input.idle with din := 64 }).params.count .dacs ∧
      2 ^ Group.dacs.width ≤ (tp zeros { Input.idle with din := 64 }).inp.din.toNat ∧ 1 ≠ 0 := by
  decide

/-- The last pixel; a row bit and a bit that is none. -/
theorem witness_PixelEnSetsExactlyOneMaskBit :
    (tp zeros Input.idle).params.Admissible ∧ (tp zeros Input.idle).cfg.Shaped (tp zeros Input.idle).params ∧
      0 < (tp zeros Input.idle).params.nCol ∧ 34 < (tp zeros Input.idle).params.nRows ∧
      ∀ q, q < (tp zeros Input.idle).params.nRows → (tp zeros Input.idle).params.rowPos q ≠ 37 :=
  ⟨Params.tp_admissible, by decide, by decide, by decide, by decide +kernel⟩

/-- The first column and the first row that do not exist. -/
theorem witness_PixelEnChecksRange :
    (tp zeros Input.idle).params.nCol ≤ 1 ∧ (tp zeros Input.idle).params.nRows ≤ 35 := by decide

/-- A state whose host is about to load the table of the store of S2. -/
def tpLoad : State :=
  tpHost (store 0 1 0 9 7) (commandsOf (loadTableInputs (savedTable Params.tp (store 1 0 1 0x2A 0x21))))

theorem witness_TableRoundTrip :
    tpLoad.params.Admissible ∧ tpLoad.cfg.Shaped tpLoad.params ∧
      (store 1 0 1 0x2A 0x21).Shaped tpLoad.params ∧
      tpLoad.host =
        commandsOf (loadTableInputs (savedTable tpLoad.params (store 1 0 1 0x2A 0x21))) ++ [] ∧
      exec (.build true) tpLoad = .next (after (.build true) tpLoad) :=
  ⟨Params.tp_admissible, by decide, by decide, by decide +kernel, rfl⟩

/-! Witnesses: serializer -/

/-- The store of S6, in range at both maxima. -/
def s6 : State := tp (store 0 0 0 63 (2 ^ 38 - 1)) Input.idle

theorem witness_BuildPlacesEveryBit :
    s6.cfg.Shaped s6.params ∧ s6.cfg.InRange ∧ 0 < s6.params.count .columns ∧ 37 < Group.columns.width := by
  decide +kernel

theorem witness_BuildLengthAndReversal :
    s6.cfg.Shaped s6.params ∧ s6.cfg.InRange ∧ (tp s6.cfg (onBytes f1)).cfg = s6.cfg ∧
      46 < (resp (.build false) s6).bv.length := by decide +kernel

/-- The store of S4: the first overflow is digital 1; and the store of S3, whose first overflow has fields
of two earlier groups before it. -/
theorem witness_BuildReportsFirstOverflow :
    (1 < ((store 0 2 0 64 0).group .digital).length ∧
        2 ^ Group.digital.width ≤ (readField (store 0 2 0 64 0) .digital 1).toNat ∧
        ∀ g' j, FieldBefore g' j .digital 1 → j < ((store 0 2 0 64 0).group g').length →
          (readField (store 0 2 0 64 0) g' j).toNat < 2 ^ g'.width) ∧
      exec (.build true) (tp (store 0 2 0 64 0) Input.idle) =
        .next (after (.build true) (tp (store 0 2 0 64 0) Input.idle)) := by
  refine ⟨⟨by decide, by decide, ?_⟩, rfl⟩
  rintro g' j (h | ⟨rfl, h⟩) -
  · exact absurd h (by simp [Group.num])
  · have : j = 0 := by omega
    subst this; decide

/-- TP with the largest field counts. -/
def tpLargest : Params :=
  { Params.tp with
    nDig := 256
    nBias := 256
    nDac := 256
    nCol := 256
    cfgDefault := ⟨List.replicate 256 0, List.replicate 256 0, List.replicate 256 0, List.replicate 256 0⟩ }

theorem witness_NbitsBound : Params.tp.Admissible ∧ tpLargest.Admissible :=
  ⟨Params.tp_admissible, by decide +kernel⟩

/-! Witnesses: waveform encoder -/

/-- A state with the bits of P2. -/
def p2 : State := tp zeros { Input.idle with bits := [true, false, true] }

theorem witness_WaveWrBytes :
    1 ≠ 0 ∧ 65535 ≠ 0 ∧ p2.inp.bits[2]? = some true ∧ 4 < 5 ∧ 0 < 1 ∧ 2 < 3 ∧ 65534 < 65535 := by decide

theorem witness_WaveRbBytes : 1 ≠ 0 ∧ 2 < p2.inp.bits.length ∧ 4 < 5 ∧ 0 < 1 := by decide

theorem witness_ZeroDividerRaises :
    Instr.waveWr 0 true ∈ [Instr.waveWr 0 true, .waveRb 0, .configWr 0 true false, .configRb 0 false] ∧
      Instr.configRb 0 false ∈ [Instr.waveWr 0 true, .waveRb 0, .configWr 0 true false, .configRb 0 false] := by
  decide

/-- A store in range and one that is not. -/
theorem witness_ConfigWrIsBuildThenWaveWr :
    1 ≠ 0 ∧ (tp (store 0 0 0 63 0) Input.idle).cfg.InRange ∧
      ¬ (tp (store 0 0 0 64 0) Input.idle).cfg.InRange := by decide +kernel

theorem witness_ConfigRbIsBuildThenWaveRb :
    2 ≠ 0 ∧ (tp (store 0 0 0 0 (2 ^ 38 - 1)) Input.idle).cfg.InRange ∧
      ¬ (tp (store 0 0 0 0 (2 ^ 38)) Input.idle).cfg.InRange := by decide +kernel

theorem witness_ExpectedLength :
    65535 ≠ 0 ∧ 65535 < 2 ^ 16 ∧ s6.params.Admissible ∧ s6.cfg.Shaped s6.params ∧ s6.cfg.InRange :=
  ⟨by decide, by decide, Params.tp_admissible, by decide, by decide +kernel⟩

/-- No repetition, and the last copy of a byte repeated twice. -/
theorem witness_ClockDivisionRepeatsInPlace : 1 ≤ 1 ∧ 0 < 1 ∧ 1 ≤ 2 ∧ 1 < 2 := by decide

theorem witness_WriteBytesUseOnlyTheLines :
    exec (.waveWr 1 true) p2 = .next (after (.waveWr 1 true) p2) ∧
      (after (.waveWr 1 true) p2).out = some (resp (.waveWr 1 true) p2) ∧
      0x08#8 ∈ (resp (.waveWr 1 true) p2).wave ∧
      exec (.configWr 1 true true) p2 = .next (after (.configWr 1 true true) p2) ∧
      0x08#8 ∈ (resp (.configWr 1 true true) p2).wave ∧
      p2.params.Admissible ∧ 0x08#8 &&& p2.params.load ≠ 0#8 :=
  ⟨rfl, rfl, by decide +kernel, rfl, by decide +kernel, Params.tp_admissible, by decide⟩

/-! Witnesses: framer -/

theorem witness_ByteReversal :
    0 < 8 ∧ 7 < 8 ∧
      exec (.frame true) (tp zeros (onBytes f1)) = .next (after (.frame true) (tp zeros (onBytes f1))) :=
  ⟨by decide, by decide, rfl⟩

theorem witness_ScanFindsExactlyTheMarkers :
    Params.tp.Admissible ∧ (⟨0, 3⟩ : Marker) ∈ scanMarkers Params.tp f1 ∧
      (⟨13, 15⟩ : Marker) ∈ scanMarkers Params.tp f1 :=
  ⟨Params.tp_admissible, by decide +kernel, by decide +kernel⟩

/-- Abutting markers, and a region of ten bytes. -/
theorem witness_AlignedStartRoundsUp :
    (⟨0, 2⟩ : Marker).stop ≤ (⟨2, 5⟩ : Marker).start ∧ (⟨0, 3⟩ : Marker).stop ≤ (⟨13, 15⟩ : Marker).start ∧
      (⟨13, 15⟩ : Marker).start ≤ (⟨0, 3⟩ : Marker).stop + 5 * 2 := by decide

/-- The region of F1, and the region of F9, whose aligned start passes the buffer's end. -/
theorem witness_RegionFramesAreChunks :
    (⟨0, 3⟩ : Marker).stop ≤ (⟨13, 15⟩ : Marker).start ∧ alignedStart ⟨0, 3⟩ ⟨13, 15⟩ ≤ f1.length ∧
      (regionFrames f1 ⟨0, 3⟩ ⟨13, 15⟩)[1]? = some ⟨0x04, 0x55, 0x66, 0x07, 0x89⟩ ∧
      (⟨0, 2⟩ : Marker).stop ≤ (⟨4, 6⟩ : Marker).start ∧ 6 < alignedStart ⟨0, 2⟩ ⟨4, 6⟩ ∧
      regionFrames [0xBC, 0x01, 0x04, 0x11, 0xBC, 0x01] ⟨0, 2⟩ ⟨4, 6⟩ = [] := by decide +kernel

/-- A marker ends just past an idle byte and a terminator, inside the buffer. -/
theorem marker_end {p : Params} {bytes : List Byte} {m : Marker} (h : IsMarker p bytes m) :
    m.stop ≤ bytes.length ∧ 2 ≤ m.stop ∧ bytes[m.stop - 2]? = some p.idleByte ∧
      ∃ x, bytes[m.stop - 1]? = some x ∧ p.termLo ≤ x ∧ x ≤ p.termHi := by
  obtain ⟨h1, h2, ⟨x, hx, hx2⟩, -⟩ := h
  have hlt : m.stop - 1 < bytes.length := (List.getElem?_eq_some_iff.1 hx).1
  exact ⟨by omega, by omega, h2 _ (by omega) (by omega), x, hx, hx2⟩

/-- The buffer of F1: its only markers are the two it is bounded by. -/
theorem witness_FramingCompleteness :
    let s := tp zeros (onBytes f1)
    s.params.Admissible ∧ isTerminator s.params 0x01 = true ∧ isTerminator s.params 0x02 = true ∧
      s.inp.bytes = List.replicate (1 + 1) s.params.idleByte ++ [0x01] ++
        Frame.toList ⟨0x04, 0x11, 0x22, 0x33, 0x44⟩ ++ Frame.toList ⟨0x04, 0x55, 0x66, 0x07, 0x89⟩ ++
        List.replicate (0 + 1) s.params.idleByte ++ [0x02] ∧
      (∀ m, IsMarker s.params s.inp.bytes m → m.stop = 1 + 2 ∨ m.stop = s.inp.bytes.length) ∧
      Frame.toList ⟨0x04, 0x55, 0x66, 0x07, 0x89⟩ ≠ List.replicate 5 s.params.idleByte := by
  refine ⟨Params.tp_admissible, by decide, by decide, by decide, ?_, by decide⟩
  intro m hm
  obtain ⟨h1, h2, h3, x, h4, h5⟩ := marker_end hm
  change m.stop ≤ 15 at h1
  change f1[m.stop - 2]? = some 0xBC#8 at h3
  change f1[m.stop - 1]? = some x at h4
  change 0x00#8 ≤ x ∧ x ≤ 0x07#8 at h5
  change m.stop = 3 ∨ m.stop = 15
  generalize m.stop = e at *
  interval_cases e <;> first
    | omega
    | exact absurd h3 (by decide)
    | (cases h4; exact absurd h5 (by decide))

/-- The buffer of F4, whose only marker is `(0, 2)`; and the markers of F5 put end to end. -/
theorem witness_NoFramesWithoutGap :
    (let s := tp zeros (onBytes [0xBC, 0x01])
     (∀ m m', IsMarker s.params s.inp.bytes m → IsMarker s.params s.inp.bytes m' → m = m') ∧
       s.params.Admissible ∧ IsMarker s.params s.inp.bytes ⟨0, 2⟩) ∧
    let s := tp zeros (onBytes [0xBC, 0x01, 0xBC, 0xBC, 0x02])
    s.params.Admissible ∧ (∀ m ∈ [(0, 0x01#8), (1, 0x02#8)], isTerminator s.params m.2 = true) ∧
      s.inp.bytes = [(0, 0x01#8), (1, 0x02#8)].flatMap
        (fun m => List.replicate (m.1 + 1) s.params.idleByte ++ [m.2]) := by
  refine ⟨⟨?_, Params.tp_admissible, by decide, ?_, ⟨0x01#8, rfl, by decide⟩, .inl rfl⟩,
    Params.tp_admissible, by decide, by decide⟩
  · intro m m' h h'
    have e := marker_end h
    have e' := marker_end h'
    have l := h.1
    have l' := h'.1
    have b : m.stop ≤ 2 := e.1
    have b' : m'.stop ≤ 2 := e'.1
    cases m; cases m'; simp only [Marker.mk.injEq] at *; omega
  · intro j h1 h2
    have : j = 0 := by simp only at h2; omega
    subst this; rfl

/-! Witnesses: hit parser -/

/-- A state with the frame of DV5. -/
def dv5 : State := tp zeros { Input.idle with frames := [⟨0x04, 0xBF, 0x7F, 0xF3, 0x12⟩] }

theorem witness_DecodeRecordFields :
    1 ≠ 0 ∧ 65535 ≠ 0 ∧ dv5.inp.frames[0]? = some ⟨0x04, 0xBF, 0x7F, 0xF3, 0x12⟩ := by decide

theorem witness_TotArithmetic : 65535 < 2 ^ 16 := by decide

theorem witness_WellFormedFlag :
    10 ≠ 0 ∧ dv5.inp.frames[0]? = some ⟨0x04, 0xBF, 0x7F, 0xF3, 0x12⟩ := by decide

theorem witness_ZeroPeriodRaises :
    Instr.decode 0 ∈ [Instr.decode 0, .readout 0 true] ∧
      Instr.readout 0 true ∈ [Instr.decode 0, .readout 0 true] := by decide

theorem witness_ReadoutIsFrameThenDecode : 1 ≠ 0 := by decide

end Sys2Proof.Tests
end

section
/-! PROOFS. The derived sizes (spec 00_scope.md R7). -/

namespace Sys2Proof

/-- `N_g ≤ 256`, so that a field index fits the 8-bit field `IDX` (R6). -/
theorem Params.count_le_of_admissible {p : Params} (h : p.Admissible) (g : Group) :
    p.count g ≤ 256 := by
  obtain ⟨⟨hDig, hBias, hDac, hCol⟩, -⟩ := h
  cases g with
  | digital => exact hDig
  | bias => exact hBias
  | dacs => exact hDac
  | columns => exact hCol

/-- `NBITS` is the sum of `N_g · W_g` over the groups (R7). -/
theorem Params.nbits_eq_sum_count_mul_width (p : Params) :
    p.nbits = p.count .digital * Group.width .digital + p.count .bias * Group.width .bias +
      p.count .dacs * Group.width .dacs + p.count .columns * Group.width .columns := rfl

/-- 256 fields in each group, of widths 1, 1, 6 and 38, make 256 · 46 = 11776 bits. -/
theorem Params.nbits_le_of_admissible {p : Params} (h : p.Admissible) : p.nbits ≤ 11776 := by
  have group_le (g : Group) : p.count g * g.width ≤ 256 * g.width :=
    Nat.mul_le_mul_right _ (count_le_of_admissible h g)
  calc
    p.nbits = p.count .digital * Group.width .digital + p.count .bias * Group.width .bias +
        p.count .dacs * Group.width .dacs + p.count .columns * Group.width .columns :=
      p.nbits_eq_sum_count_mul_width
    _ ≤ 256 * Group.width .digital + 256 * Group.width .bias + 256 * Group.width .dacs +
        256 * Group.width .columns := by
      gcongr ?_ + ?_ + ?_ + ?_ <;> exact group_le _
    _ = 11776 := rfl

/-- Settles O34: the sum is the model's definition of `NBITS`, and the bound is that of the four groups. -/
theorem nbitsBound : Obligations.NbitsBound := by
  intro p h
  exact ⟨p.nbits_eq_sum_count_mul_width, Params.nbits_le_of_admissible h⟩

end Sys2Proof
end

section
/-! PROOFS. The state: what reset, a command and a step leave behind, and which ports a command touches (spec
10_state.md). -/

namespace Sys2Proof.Machine

/-! Completing a command -/

section Complete

variable (s : State) (res : Except Err (Store × Response))

@[simp] theorem complete_params : (s.complete res).params = s.params := by
  rcases res with e | ⟨cfg, r⟩ <;> rfl

@[simp] theorem complete_inp : (s.complete res).inp = s.inp := by
  rcases res with e | ⟨cfg, r⟩ <;> rfl

@[simp] theorem complete_host : (s.complete res).host = s.host := by
  rcases res with e | ⟨cfg, r⟩ <;> rfl

/-- The response of a command carries the legal value STATUS then holds (R28, R211). -/
theorem complete_answers : ∃ r : Response, (s.complete res).out = some r ∧
    r.status = (s.complete res).status ∧ LegalStatus (s.complete res).status := by
  rcases res with e | ⟨cfg, r⟩
  · exact ⟨_, raise_out s e, rfl, legalStatus_error e⟩
  · exact ⟨_, done_out s cfg r, rfl, by simpa using legalStatus_zero⟩

/-- Completing does not look at the input ports. -/
theorem complete_with_inp (inp : Input) :
    State.complete { s with inp := inp } res = { s.complete res with inp := inp } := by
  rcases res with e | ⟨cfg, r⟩ <;> rfl

end Complete

/-- Completing with the store as it was keeps the store, and over another store the rest of the state is the
same. -/
theorem complete_map_store (s : State) (ans : Except Err Response) (cfg : Store) :
    State.complete { s with cfg := cfg } (ans.map (cfg, ·)) =
      { s.complete (ans.map (s.cfg, ·)) with cfg := cfg } := by
  cases ans <;> rfl

theorem complete_map_cfg (s : State) (ans : Except Err Response) :
    (s.complete (ans.map (s.cfg, ·))).cfg = s.cfg := by
  cases ans <;> rfl

/-! The invariant -/

/-- Completing a command makes a sound state when the store it leaves has the right shape: STATUS and the
response are the command's own, whatever they were before. -/
theorem inv_complete {s : State} {res : Except Err (Store × Response)} (hp : s.params.Admissible)
    (hs : s.cfg.Shaped s.params) (hres : ∀ cfg r, res = .ok (cfg, r) → cfg.Shaped s.params) :
    (s.complete res).Inv := by
  obtain ⟨answer, hout, hstatus, hlegal⟩ := complete_answers s res
  refine ⟨by rwa [complete_params], ?_, hlegal, ?_⟩
  · rcases res with e | ⟨cfg, r⟩
    · exact hs
    · exact hres cfg r rfl
  · intro r hr
    rw [hout] at hr
    cases hr
    exact hstatus

/-- Error entry leaves a sound state: it keeps the store (R212). -/
theorem inv_raise {s : State} (e : Err) (hp : s.params.Admissible) (hs : s.cfg.Shaped s.params) :
    (s.raise e).Inv :=
  inv_complete (res := .error e) hp hs fun _ _ h => nomatch h

/-- Every command leaves a sound state. -/
theorem inv_exec {i : Instr} {s t : State} (hp : s.params.Admissible) (hs : s.cfg.Shaped s.params)
    (h : exec i s = .next t) : t.Inv := by
  rw [exec_eq_complete] at h
  cases h
  exact inv_complete hp hs fun _ _ => shaped_effect i hs

/-- Reset leaves a sound state, whatever the host does next. -/
theorem inv_afterReset {p : Params} (hp : p.Admissible) (host : List HostEvent) :
    (State.afterReset p host).Inv where
  admissible := hp
  shaped := shaped_reset hp
  legal := legalStatus_zero
  answered := by simp

/-- Settles O13, along what a step can do: wait, run a command, raise `E_ILLEGAL`, or reset. -/
theorem stepKeepsInv : Obligations.StepKeepsInv := by
  intro s t hinv h
  have ⟨hp, hs, _, _⟩ := hinv
  obtain ⟨-, rfl⟩ | ⟨inp, rest, i, -, -, hexec⟩ | ⟨inp, rest, e, -, -, rfl⟩ | ⟨rest, -, rfl⟩ :=
    step_cases s t h
  · exact hinv
  · exact inv_exec (s := s.present inp rest) hp hs hexec
  · exact inv_raise (s := s.present inp rest) .illegal hp hs
  · exact inv_afterReset hp rest

/-- Settles O12: the implementation's parameters are admissible by its own proof field. -/
theorem invHoldsAtReset : Obligations.InvHoldsAtReset :=
  inv_afterReset Config.implementation.admissible []

/-- Settles O11: the defaults have the parameters' shape, and R6 puts each of them in range. -/
theorem resetValues : Obligations.ResetValues := by
  refine ⟨fun p host hp => ⟨rfl, fun g i hi => ⟨rfl, ?_⟩⟩, rfl, Config.implementation.admissible⟩
  obtain ⟨-, -, -, ⟨hshape, hrange⟩, -⟩ := hp
  exact (inRange_iff _).mp hrange g i (by rwa [length_group_of_shaped hshape])

/-! Steps and runs -/

/-- Settles O6: presenting the record and taking the event is the state the command runs in. -/
theorem stepRunsDecodedCommand : Obligations.StepRunsDecodedCommand :=
  step_command_ok

/-- A host that keeps the discipline gets a next state, with its event taken and the parameters kept. -/
theorem step_of_disciplined (s : State) (h : s.hostDisciplined = true) :
    ∃ t, step s = .next t ∧ t.host = s.host.tail ∧ t.params = s.params := by
  match hh : s.host with
  | [] => exact ⟨s, step_idle s hh, hh, rfl⟩
  | .command inp :: rest =>
    match hd : decode inp.word with
    | .ok i =>
      exact ⟨_, (step_command_ok s inp rest i hh hd).trans (exec_eq_complete i _),
        complete_host _ _, complete_params _ _⟩
    | .error e => exact ⟨_, step_command_illegal s inp rest e hh hd, rfl, rfl⟩
  | .reset :: rest => exact ⟨_, step_reset s rest hh, rfl, rfl⟩
  | .commandEarly inp :: rest => simp [State.hostDisciplined, hh, HostEvent.disciplined] at h
  | .resetDuringCommand :: rest => simp [State.hostDisciplined, hh, HostEvent.disciplined] at h

/-- The discipline of a list of events is one of its tail. -/
theorem hostDisciplined_of_tail {s t : State} (h : s.hostDisciplined = true)
    (ht : t.host = s.host.tail) : t.hostDisciplined = true := by
  rw [State.hostDisciplined, List.all_eq_true] at h ⊢
  rw [ht]
  exact fun e he => h e (List.mem_of_mem_tail he)

/-- Settles O14, by induction on the length of the run. -/
theorem disciplinedHostNeverRefused : Obligations.DisciplinedHostNeverRefused := by
  intro n
  induction n with
  | zero => exact fun s _ => ⟨s, run_zero s, rfl, rfl⟩
  | succ n ih =>
    intro s hs
    obtain ⟨u, hstep, hhost, hparams⟩ := step_of_disciplined s hs
    obtain ⟨t, hrun, hthost, htparams⟩ := ih u (hostDisciplined_of_tail hs hhost)
    refine ⟨t, (run_succ_next n s u hstep).trans hrun, ?_, htparams.trans hparams⟩
    rw [hthost, hhost, List.drop_tail]

/-- Settles O15: a command completes with its effect, and every completion answers. -/
theorem everyCommandAnswers : Obligations.EveryCommandAnswers := by
  intro i s
  obtain ⟨r, hout, hstatus, hlegal⟩ := complete_answers s (effectOf i s)
  exact ⟨_, r, exec_eq_complete i s, hout, hstatus, hlegal, complete_params _ _, complete_inp _ _,
    complete_host _ _⟩

/-! The store -/

/-- A command that leaves another store is FIELD_WR or PIXEL_EN (R26). -/
theorem exec_changes_cfg {i : Instr} {s t : State} (h : exec i s = .next t) (hne : t.cfg ≠ s.cfg) :
    (∃ g n, i = .fieldWr g n) ∨ ∃ c n, i = .pixelEn c n := by
  obtain ⟨cfg, r, heff, hdone⟩ | ⟨e, -, hraise⟩ := exec_cases i s
  · rw [hdone] at h
    cases h
    exact (cfg_effect i heff).resolve_left hne
  · rw [hraise] at h
    cases h
    exact absurd rfl hne

/-- Settles O20: waiting and `E_ILLEGAL` keep the store, so the step was a reset or a writing command. -/
theorem onlyWritesChangeStore : Obligations.OnlyWritesChangeStore := by
  intro s t h hne
  obtain ⟨-, rfl⟩ | ⟨inp, rest, i, hhost, hdec, hexec⟩ | ⟨inp, rest, e, -, -, rfl⟩ | ⟨rest, hhost, -⟩ :=
    step_cases s t h
  · exact absurd rfl hne
  · refine .inr ⟨inp, rest, hhost, ?_⟩
    obtain ⟨g, n, rfl⟩ | ⟨c, n, rfl⟩ := exec_changes_cfg hexec hne
    · exact .inl ⟨g, n, hdec⟩
    · exact .inr ⟨c, n, hdec⟩
  · exact absurd rfl hne
  · exact .inl ⟨rest, hhost⟩

/-- In this state the command gives one and the same answer over every store, and keeps that store. -/
def IgnoresStore (i : Instr) (s : State) : Prop :=
  ∃ ans : Except Err Response, ∀ cfg, effectOf i { s with cfg := cfg } = ans.map (cfg, ·)

/-- A command that checks an operand and then keeps the store answers apart from it. -/
theorem check_then_keep (check : Except Err Unit) (r : Response) (cfg : Store) :
    (do check; pure (cfg, r)) = (check.map fun _ => r).map (cfg, ·) := by
  cases check <;> rfl

theorem ignoresStore_frame (v : Bool) (s : State) : IgnoresStore (.frame v) s :=
  ⟨.ok { Response.empty with frames := framesOf s.params (bitCorrect v s.inp.bytes) }, fun _ => rfl⟩

theorem ignoresStore_decode (period : Nat) (s : State) : IgnoresStore (.decode period) s :=
  ⟨_, check_then_keep (checkPeriod period)
    { Response.empty with records := decodeFrames s.inp.frames period }⟩

theorem ignoresStore_readout (period : Nat) (v : Bool) (s : State) :
    IgnoresStore (.readout period v) s :=
  ⟨_, check_then_keep (checkPeriod period)
    { Response.empty with
      records := decodeFrames (framesOf s.params (bitCorrect v s.inp.bytes)) period }⟩

theorem ignoresStore_waveWr (k : Nat) (l : Bool) (s : State) : IgnoresStore (.waveWr k l) s :=
  ⟨_, check_then_keep (checkDivider k) (writeWave s.params s.inp.bits k l)⟩

theorem ignoresStore_waveRb (k : Nat) (s : State) : IgnoresStore (.waveRb k) s :=
  ⟨_, check_then_keep (checkDivider k) (readBackWave s.params s.inp.bits k)⟩

theorem exec_of_ignoresStore {i : Instr} {s t : State} (hi : IgnoresStore i s) (h : exec i s = .next t)
    (cfg : Store) : t.cfg = s.cfg ∧ exec i { s with cfg := cfg } = .next { t with cfg := cfg } := by
  obtain ⟨ans, hans⟩ := hi
  have heff : effectOf i s = ans.map (s.cfg, ·) := hans s.cfg
  rw [exec_eq_complete, heff] at h
  cases h
  exact ⟨complete_map_cfg s ans, by rw [exec_eq_complete, hans, complete_map_store]⟩

/-- Settles O19: each of the five answers apart from the store. -/
theorem streamCommandsIgnoreStore : Obligations.StreamCommandsIgnoreStore := by
  intro s t cfg i hi h
  have hstore : IgnoresStore i s := by
    obtain ⟨v, rfl⟩ | ⟨period, rfl⟩ | ⟨period, v, rfl⟩ | ⟨k, l, rfl⟩ | ⟨k, rfl⟩ := hi
    · exact ignoresStore_frame v s
    · exact ignoresStore_decode period s
    · exact ignoresStore_readout period v s
    · exact ignoresStore_waveWr k l s
    · exact ignoresStore_waveRb k s
  exact exec_of_ignoresStore hstore h cfg

/-! The output ports -/

/-- The response sets at most the ports that R31 lets the command set, apart from `out.status`. -/
def SetsOnlyItsPorts (i : Instr) (r : Response) : Prop :=
  match i with
  | .nop | .fieldWr _ _ | .pixelEn _ _ => r = Response.empty
  | .fieldRd _ _ => ∃ v, r = { Response.empty with dout := v }
  | .build _ => ∃ bits, r = { Response.empty with bv := bits }
  | .waveWr _ _ | .waveRb _ | .configWr _ _ _ | .configRb _ _ =>
    ∃ bytes n, r = { Response.empty with wave := bytes, explen := n }
  | .frame _ => ∃ fs, r = { Response.empty with frames := fs }
  | .decode _ | .readout _ _ => ∃ hits, r = { Response.empty with records := hits }

/-- A computation in two parts answers when both do. -/
theorem bind_ok_elim {α β : Type} {x : Except Err α} {f : α → Except Err β} {b : β}
    (h : x >>= f = .ok b) : ∃ a, x = .ok a ∧ f a = .ok b := by
  cases x with
  | error e => cases h
  | ok a => exact ⟨a, rfl, h⟩

/-- A command that completes sets only its ports. -/
theorem setsOnlyItsPorts_effect {i : Instr} {s : State} {cfg : Store} {r : Response}
    (h : effectOf i s = .ok (cfg, r)) : SetsOnlyItsPorts i r := by
  cases i with
  | nop => cases h; rfl
  | fieldWr g n => obtain ⟨-, -, ⟨⟩⟩ := bind_ok_elim h; rfl
  | fieldRd g n => obtain ⟨-, -, ⟨⟩⟩ := bind_ok_elim h; exact ⟨_, rfl⟩
  | pixelEn c n => obtain ⟨-, -, ⟨⟩⟩ := bind_ok_elim h; rfl
  | build m => obtain ⟨bits, -, ⟨⟩⟩ := bind_ok_elim h; exact ⟨bits, rfl⟩
  | waveWr k l => obtain ⟨-, -, ⟨⟩⟩ := bind_ok_elim h; exact ⟨_, _, rfl⟩
  | waveRb k => obtain ⟨-, -, ⟨⟩⟩ := bind_ok_elim h; exact ⟨_, _, rfl⟩
  | configWr k l m =>
    obtain ⟨-, -, h⟩ := bind_ok_elim h
    obtain ⟨bits, -, ⟨⟩⟩ := bind_ok_elim h
    exact ⟨_, _, rfl⟩
  | configRb k m =>
    obtain ⟨-, -, h⟩ := bind_ok_elim h
    obtain ⟨bits, -, ⟨⟩⟩ := bind_ok_elim h
    exact ⟨_, _, rfl⟩
  | frame v => cases h; exact ⟨_, rfl⟩
  | decode period => obtain ⟨-, -, ⟨⟩⟩ := bind_ok_elim h; exact ⟨_, rfl⟩
  | readout period v => obtain ⟨-, -, ⟨⟩⟩ := bind_ok_elim h; exact ⟨_, rfl⟩

/-- A command that raises an error sets no port at all, so only its ports. -/
theorem setsOnlyItsPorts_empty (i : Instr) : SetsOnlyItsPorts i Response.empty := by
  cases i with
  | nop | fieldWr | pixelEn => rfl
  | fieldRd | build | frame | decode | readout => exact ⟨_, rfl⟩
  | waveWr | waveRb | configWr | configRb => exact ⟨_, _, rfl⟩

/-- Every response is one that sets only the command's ports, with the value of STATUS. -/
theorem exec_out_setsOnlyItsPorts {i : Instr} {s t : State} {r : Response} (h : exec i s = .next t)
    (hr : t.out = some r) : ∃ ports w, SetsOnlyItsPorts i ports ∧ r = { ports with status := w } := by
  obtain ⟨cfg, ports, heff, hdone⟩ | ⟨e, -, hraise⟩ := exec_cases i s
  · rw [hdone] at h
    cases h
    cases hr
    exact ⟨ports, statusOk, setsOnlyItsPorts_effect heff, rfl⟩
  · rw [hraise] at h
    cases h
    cases hr
    exact ⟨Response.empty, e.status, setsOnlyItsPorts_empty i, rfl⟩

/-- Settles O22: R31's table, read off the ports each command sets. -/
theorem unsetPortsEmpty : Obligations.UnsetPortsEmpty := by
  intro i s t r h hr
  obtain ⟨ports, w, hports, rfl⟩ := exec_out_setsOnlyItsPorts h hr
  cases i with
  | nop | fieldWr | pixelEn =>
    cases hports
    simp [Response.empty]
  | fieldRd | build | frame | decode | readout =>
    obtain ⟨x, rfl⟩ := hports
    simp [Response.empty, Instr.mnemonic]
  | waveWr | waveRb | configWr | configRb =>
    obtain ⟨bytes, n, rfl⟩ := hports
    simp [Response.empty, Instr.mnemonic]

/-! The input ports -/

/-- The effect of a command is the same when the input ports it reads hold the same values (R32). -/
theorem effect_with_inp {i : Instr} {s : State} {inp : Input}
    (hdin : i.mnemonic = "FIELD_WR" → inp.din = s.inp.din)
    (hbits : i.mnemonic ∈ ["WAVE_WR", "WAVE_RB"] → inp.bits = s.inp.bits)
    (hbytes : i.mnemonic ∈ ["FRAME", "READOUT"] → inp.bytes = s.inp.bytes)
    (hframes : i.mnemonic = "DECODE" → inp.frames = s.inp.frames) :
    effectOf i { s with inp := inp } = effectOf i s := by
  cases i with
  | nop | fieldRd | pixelEn | build | configWr | configRb => rfl
  | fieldWr g n => simp only [effectOf, hdin rfl]
  | waveWr | waveRb => simp only [effectOf, hbits (by simp [Instr.mnemonic])]
  | frame | readout => simp only [effectOf, hbytes (by simp [Instr.mnemonic])]
  | decode period => simp only [effectOf, hframes rfl]

/-- Settles O23: neither the effect nor the completion looks at a port that is not read. -/
theorem unreadPortsIgnored : Obligations.UnreadPortsIgnored := by
  intro i s t inp h hdin hbits hbytes hframes
  rw [exec_eq_complete] at h
  cases h
  rw [exec_eq_complete, effect_with_inp hdin hbits hbytes hframes, complete_with_inp]

end Sys2Proof.Machine
end

section
/-! PROOFS. The layouts the block fixes in place of a memory: repeated reads, the field address map, the
waveform bytes and byte reversal (spec 20_memory.md). -/

namespace Sys2Proof.Machine

/-! Repeated reads (R59) -/

/-- A command reads the parameters, the store and the input ports, and nothing else of the state. -/
theorem effectOf_congr {s t : State} (i : Instr) (hparams : t.params = s.params) (hcfg : t.cfg = s.cfg)
    (hinp : t.inp = s.inp) : effectOf i t = effectOf i s := by
  cases i <;> simp only [effectOf, hparams, hcfg, hinp]

/-- Completing twice with one effect is completing once. -/
theorem complete_complete (s : State) (res : Except Err (Store × Response)) :
    (s.complete res).complete res = s.complete res := by
  rcases res with e | ⟨cfg, r⟩ <;> rfl

/-- A command that leaves the store as it was answers the same when issued again. -/
theorem exec_again_of_cfg_eq {i : Instr} {s t : State} (h : exec i s = .next t) (hcfg : t.cfg = s.cfg) :
    exec i t = .next t := by
  rw [exec_eq_complete] at h
  cases h
  rw [exec_eq_complete, effectOf_congr i (complete_params _ _) hcfg (complete_inp _ _), complete_complete]

/-- Settles O21: none of the four is a writing command, so each keeps the store and repeats. -/
theorem readingCommandsIdempotent : Obligations.ReadingCommandsIdempotent := by
  intro s t i hi h
  have hcfg : t.cfg = s.cfg := by
    by_contra hne
    obtain ⟨g, n, rfl⟩ | ⟨c, n, rfl⟩ := exec_changes_cfg h hne <;> simp at hi
  exact ⟨hcfg, exec_again_of_cfg_eq h hcfg⟩

/-! The field address map (R51, R52) -/

/-- The bits of the groups serialized before group `g`. -/
def bitsBefore (cfg : Store) : Group → List Bool
  | .digital => []
  | .bias => groupBits cfg .digital
  | .dacs => groupBits cfg .digital ++ groupBits cfg .bias
  | .columns => groupBits cfg .digital ++ groupBits cfg .bias ++ groupBits cfg .dacs

/-- The bits of a group follow those of the groups before it. -/
theorem bitsBefore_append_groupBits_prefix (cfg : Store) (g : Group) :
    bitsBefore cfg g ++ groupBits cfg g <+: concatBits cfg := by
  cases g with
  | digital => exact ⟨groupBits cfg .bias ++ groupBits cfg .dacs ++ groupBits cfg .columns,
      by simp [bitsBefore, concatBits]⟩
  | bias => exact ⟨groupBits cfg .dacs ++ groupBits cfg .columns, by simp [bitsBefore, concatBits]⟩
  | dacs => exact ⟨groupBits cfg .columns, rfl⟩
  | columns => exact List.prefix_rfl

/-- R51's offset of a field counts the groups before its own, then the fields of its group before it. -/
theorem fieldOffset_eq {p : Params} {cfg : Store} (hs : cfg.Shaped p) (g : Group) (i : Nat) :
    fieldOffset p g i = (bitsBefore cfg g).length + g.width * i := by
  cases g <;>
    simp only [fieldOffset, bitsBefore, List.length_append, List.length_nil, length_groupBits,
      length_group_of_shaped hs, Params.count, Group.width] <;>
    omega

/-- Bit `k` of a field stands at the field's offset, most significant bit first. -/
theorem getElem?_concatBits {p : Params} {cfg : Store} (hs : cfg.Shaped p) {g : Group} {i k : Nat}
    (hi : i < p.count g) (hk : k < g.width) :
    (concatBits cfg)[fieldOffset p g i + (g.width - 1 - k)]? =
      some ((readField cfg g i).getLsbD k) := by
  have hplace : (bitsBefore cfg g ++ groupBits cfg g)[fieldOffset p g i + (g.width - 1 - k)]? =
      some ((readField cfg g i).getLsbD k) := by
    rw [fieldOffset_eq hs, Nat.add_assoc, List.getElem?_append_right (Nat.le_add_right _ _),
      Nat.add_sub_cancel_left]
    exact getElem?_groupBits cfg g i k (by rwa [length_group_of_shaped hs]) hk
  obtain ⟨hlt, hval⟩ := List.getElem?_eq_some_iff.mp hplace
  rw [List.prefix_iff_getElem?.mp (bitsBefore_append_groupBits_prefix cfg g) _ hlt, hval]

/-- BUILD on a store in range completes with the concatenation, reversed unless `M` is 1. -/
theorem exec_build_of_inRange {s : State} (m : Bool) (h : s.cfg.InRange) :
    exec (.build m) s = .next (s.done s.cfg { Response.empty with
      bv := if m then concatBits s.cfg else (concatBits s.cfg).reverse }) := by
  rw [exec_eq_complete, effect_build, serialize_ok m h]
  rfl

/-- Settles O31: the answer is the concatenation, whose bits stand where the address map says. -/
theorem buildPlacesEveryBit : Obligations.BuildPlacesEveryBit := by
  intro s hs hrange
  refine ⟨{ Response.empty with bv := concatBits s.cfg }, exec_build_of_inRange true hrange, rfl,
    length_concatBits hs, fun g i k hi hk => ?_⟩
  have hbit := getElem?_concatBits hs hi hk
  cases g <;> exact hbit

/-! Waveform bytes (R54) -/

/-- A byte has no bit outside a mask when each of its bits is one of the mask's. -/
theorem and_not_eq_zero_iff (x m : Byte) :
    x &&& ~~~m = 0#8 ↔ ∀ k, x.getLsbD k = true → m.getLsbD k = true := by
  constructor
  · intro h k hx
    have hbit : (x &&& ~~~m).getLsbD k = false := by rw [h, BitVec.getLsbD_zero]
    simpa [hx, BitVec.lt_of_getLsbD hx] using hbit
  · intro h
    apply BitVec.eq_of_getLsbD_eq
    intro k hk
    cases hx : x.getLsbD k with
    | false => simp [hx]
    | true => simp [hx, h k hx]

/-- A byte inside a mask shares no bit with what the mask shares none with. -/
theorem and_eq_zero_of_and_not_eq_zero {x m y : Byte} (hx : x &&& ~~~m = 0#8) (hy : y &&& m = 0#8) :
    x &&& y = 0#8 := by
  rw [and_not_eq_zero_iff] at hx
  apply BitVec.eq_of_getLsbD_eq
  intro k hk
  have hbit : (y &&& m).getLsbD k = false := by rw [hy, BitVec.getLsbD_zero]
  cases hxk : x.getLsbD k with
  | false => simp [hxk]
  | true => simpa [hxk, hx k hxk] using hbit

/-- A write-mode byte is the load line alone, or has only bits of the data and clock lines. -/
theorem load_or_data_of_mem_rawWrite {p : Params} {bits : List Bool} {l : Bool} {x : Byte}
    (h : x ∈ rawWrite p bits l) : x = p.load ∨ x &&& ~~~(p.sin ||| p.clkA ||| p.clkB) = 0#8 := by
  have hx := mem_rawWrite h
  rw [or_iff_not_imp_left, and_not_eq_zero_iff]
  intro hload k
  simp only [List.mem_cons, List.not_mem_nil, hload, or_false] at hx
  rcases hx with rfl | rfl | rfl | rfl | rfl | rfl <;>
    simp only [BitVec.getLsbD_or, BitVec.getLsbD_zero, Bool.or_eq_true] <;>
    tauto

/-- The load line shares no bit with the data line and the clock lines. -/
theorem load_and_data_eq_zero {p : Params} (h : p.Admissible) :
    p.load &&& (p.sin ||| p.clkA ||| p.clkB) = 0#8 := by
  obtain ⟨-, -, -, -, ⟨hsin, hclkA, hclkB, hload⟩, hnodup, -⟩ := h
  simp only [List.nodup_cons, List.mem_cons, List.not_mem_nil, or_false, not_or] at hnodup
  obtain ⟨⟨-, -, hsin_ne⟩, ⟨-, hclkA_ne⟩, hclkB_ne, -⟩ := hnodup
  rw [BitVec.and_or_distrib_left, BitVec.and_or_distrib_left,
    oneHotBytes_disjoint hload hsin (Ne.symm hsin_ne),
    oneHotBytes_disjoint hload hclkA (Ne.symm hclkA_ne),
    oneHotBytes_disjoint hload hclkB (Ne.symm hclkB_ne)]
  rfl

/-- WAVE_WR completes with a write-mode response. -/
theorem writeWave_of_effect_waveWr {s : State} {cfg : Store} {r : Response} {k : Nat} {l : Bool}
    (h : effectOf (.waveWr k l) s = .ok (cfg, r)) : ∃ bits, r = writeWave s.params bits k l := by
  obtain ⟨-, -, ⟨⟩⟩ := bind_ok_elim h
  exact ⟨_, rfl⟩

/-- CONFIG_WR completes with a write-mode response. -/
theorem writeWave_of_effect_configWr {s : State} {cfg : Store} {r : Response} {k : Nat} {l m : Bool}
    (h : effectOf (.configWr k l m) s = .ok (cfg, r)) : ∃ bits, r = writeWave s.params bits k l := by
  obtain ⟨-, -, h⟩ := bind_ok_elim h
  obtain ⟨bits, -, ⟨⟩⟩ := bind_ok_elim h
  exact ⟨bits, rfl⟩

/-- A byte on `out.wave` is one of the response that the command completed with: an error leaves the port
empty (R212). -/
theorem effect_of_mem_wave {i : Instr} {s t : State} {r : Response} {x : Byte} (h : exec i s = .next t)
    (hout : t.out = some r) (hx : x ∈ r.wave) :
    ∃ cfg ports, effectOf i s = .ok (cfg, ports) ∧ x ∈ ports.wave := by
  obtain ⟨cfg, ports, heff, hdone⟩ | ⟨e, -, hraise⟩ := exec_cases i s
  · rw [hdone] at h
    cases h
    cases hout
    exact ⟨cfg, ports, heff, hx⟩
  · rw [hraise] at h
    cases h
    cases hout
    exact absurd hx List.not_mem_nil

/-- A byte of a write-mode command's waveform is a byte of an undivided write-mode waveform. -/
theorem mem_rawWrite_of_mem_wave {s t : State} {r : Response} {k : Nat} {l m : Bool} {x : Byte}
    (h : exec (.waveWr k l) s = .next t ∨ exec (.configWr k l m) s = .next t) (hout : t.out = some r)
    (hx : x ∈ r.wave) : ∃ bits, x ∈ rawWrite s.params bits l := by
  have hwave : ∃ bits, x ∈ (writeWave s.params bits k l).wave := by
    rcases h with h | h
    · obtain ⟨cfg, ports, heff, hmem⟩ := effect_of_mem_wave h hout hx
      obtain ⟨bits, rfl⟩ := writeWave_of_effect_waveWr heff
      exact ⟨bits, hmem⟩
    · obtain ⟨cfg, ports, heff, hmem⟩ := effect_of_mem_wave h hout hx
      obtain ⟨bits, rfl⟩ := writeWave_of_effect_configWr heff
      exact ⟨bits, hmem⟩
  obtain ⟨bits, hmem⟩ := hwave
  exact ⟨bits, mem_of_mem_divideClock hmem⟩

/-- Settles O42: a byte is the load line alone, or has only data and clock bits, which the load line does
not share. -/
theorem writeBytesUseOnlyTheLines : Obligations.WriteBytesUseOnlyTheLines := by
  intro s t r k l m x h hout hx
  obtain ⟨bits, hmem⟩ := mem_rawWrite_of_mem_wave h hout hx
  obtain rfl | hdata := load_or_data_of_mem_rawWrite hmem
  · exact ⟨(and_not_eq_zero_iff _ _).mpr fun k hk => by simp [hk], fun _ _ => rfl⟩
  · constructor
    · rw [BitVec.not_or, ← BitVec.and_assoc, hdata, BitVec.zero_and]
    · intro hp hload
      exact absurd (and_eq_zero_of_and_not_eq_zero hdata (load_and_data_eq_zero hp)) hload

/-! Byte reversal (R55) -/

/-- `rev8(x)[7 - k] = x[k]` (R55). -/
theorem getLsbD_rev8 (x : Byte) {k : Nat} (hk : k < 8) : (rev8 x).getLsbD (7 - k) = x.getLsbD k := by
  simp only [rev8, BitVec.getLsbD_append]
  interval_cases k <;> simp

/-- FRAME with `V` is FRAME without it on the reversed bytes. -/
theorem effect_frame_map_rev8 (s : State) :
    effectOf (.frame false) { s with inp := { s.inp with bytes := s.inp.bytes.map rev8 } } =
      effectOf (.frame true) s := rfl

/-- Settles O43: completing looks at no input port, so only `in.bytes` differs after the two commands. -/
theorem byteReversal : Obligations.ByteReversal := by
  refine ⟨fun x k => getLsbD_rev8 x, fun s t h => ?_⟩
  rw [exec_eq_complete] at h
  cases h
  rw [exec_eq_complete, effect_frame_map_rev8, complete_with_inp]

end Sys2Proof.Machine
end

section
/-! PROOFS. The decoder against the opcode map, the illegal words, and the written form of commands (spec
30_encoding.md). -/

namespace Sys2Proof

/-! The rows of the opcode map (R79) -/

/-- The operands of a row make a command of that row. -/
theorem mnemonic_operands {r : OpRow} (hr : r ∈ opcodeMap) (w : Word) :
    (r.operands w).mnemonic = r.mnemonic := by
  simp only [opcodeMap, List.mem_cons, List.not_mem_nil, or_false] at hr
  rcases hr with rfl | rfl | rfl | rfl | rfl | rfl | rfl | rfl | rfl | rfl | rfl | rfl <;> rfl

theorem not_accepts_iff (r : OpRow) (w : Word) : r.accepts w = false ↔ w &&& r.mask ≠ r.pattern := by
  rw [← Bool.not_eq_true, r.accepts_iff]

/-- Settles O3: no two rows accept one word, so the decoder answers with the one row met; without one it
answers an error. -/
theorem decodeFollowsOpcodeMap : Obligations.DecodeFollowsOpcodeMap := by
  refine ⟨rfl, fun w => ⟨fun r hr hmeets => ⟨?_, mnemonic_operands hr w⟩, ?_⟩⟩
  · exact decode_of_accepts r w hr ((r.accepts_iff w).mpr hmeets)
  · simp only [decode_error_iff, not_accepts_iff]

/-! Illegal words (R81) -/

/-- The patterns of the map are the opcodes in order. -/
theorem opcodeMap_patterns : opcodeMap.map (·.pattern) = (List.range 0xC).map (BitVec.ofNat 32) := rfl

/-- An opcode has a row exactly when it is below `0xC`. -/
theorem exists_row_iff (op : Word) : (∃ r ∈ opcodeMap, op = r.pattern) ↔ op < 0xC#32 := by
  have hmem : (∃ r ∈ opcodeMap, op = r.pattern) ↔ op ∈ opcodeMap.map (·.pattern) := by
    simp only [List.mem_map, eq_comm]
  rw [hmem, opcodeMap_patterns, List.mem_map]
  constructor
  · rintro ⟨n, hn, rfl⟩
    rw [List.mem_range] at hn
    bv_omega
  · intro h
    exact ⟨op.toNat, List.mem_range.mpr h, by simp⟩

/-- The field `OP` is bits 3 to 0. -/
theorem getLsbD_opcodeField (k : Nat) : (0xF#32).getLsbD k = decide (k < 4) := by
  have hfield : 0xF#32 = (BitVec.allOnes 4).setWidth 32 := by decide
  rw [hfield, BitVec.getLsbD_setWidth, BitVec.getLsbD_allOnes, Bool.and_eq_right_iff_imp]
  simp only [decide_eq_true_eq]
  omega

/-- A mask keeps the opcode. -/
theorem getLsbD_mask_of_lt {r : OpRow} (hr : r ∈ opcodeMap) {k : Nat} (hk : k < 4) :
    r.mask.getLsbD k = true := by
  obtain ⟨-, hmask, -⟩ := opcodeMap_row r hr
  simpa [getLsbD_opcodeField, hk] using getLsbD_of_mask hmask k

/-- A pattern is nothing but the opcode. -/
theorem getLsbD_pattern_of_le {r : OpRow} (hr : r ∈ opcodeMap) {k : Nat} (hk : 4 ≤ k) :
    r.pattern.getLsbD k = false := by
  obtain ⟨-, -, hpattern⟩ := opcodeMap_row r hr
  rw [← getLsbD_of_mask hpattern k, getLsbD_opcodeField, decide_eq_false (Nat.not_lt.mpr hk),
    Bool.and_false]

/-- No two rows have one opcode. -/
theorem row_eq_of_pattern_eq {r r' : OpRow} (hr : r ∈ opcodeMap) (hr' : r' ∈ opcodeMap)
    (h : r.pattern = r'.pattern) : r = r' := by
  obtain ⟨hrow, -, -⟩ := opcodeMap_row r hr
  obtain ⟨hrow', -, -⟩ := opcodeMap_row r' hr'
  rw [h, hrow'] at hrow
  exact (Option.some.inj hrow).symm

/-- Apart from the opcode, a row asks of a word that the bits its mask keeps are 0. -/
theorem accepts_iff_of_opcode {r : OpRow} (hr : r ∈ opcodeMap) {w : Word} (hop : w &&& 0xF#32 = r.pattern) :
    r.accepts w = true ↔ ∀ k, 4 ≤ k → r.mask.getLsbD k = true → w.getLsbD k = false := by
  rw [r.accepts_iff]
  constructor
  · intro hmeets k hk hm
    simpa [hm, getLsbD_pattern_of_le hr hk] using getLsbD_of_mask hmeets k
  · intro hzero
    apply BitVec.eq_of_getLsbD_eq
    intro k _
    rw [BitVec.getLsbD_and]
    by_cases hk : k < 4
    · simpa [getLsbD_opcodeField, hk, getLsbD_mask_of_lt hr hk] using getLsbD_of_mask hop k
    · rw [getLsbD_pattern_of_le hr (Nat.le_of_not_lt hk), Bool.and_eq_false_iff, or_iff_not_imp_right,
        Bool.not_eq_false]
      exact hzero k (Nat.le_of_not_lt hk)

/-- The row of a word's opcode refuses the word when it has a 1 in a bit the row requires to be 0. -/
theorem not_accepts_iff_reserved_bit {r : OpRow} (hr : r ∈ opcodeMap) {w : Word}
    (hop : w &&& 0xF#32 = r.pattern) :
    r.accepts w = false ↔ ∃ k, 4 ≤ k ∧ r.mask.getLsbD k = true ∧ w.getLsbD k = true := by
  rw [← Bool.not_eq_true, accepts_iff_of_opcode hr hop]
  simp only [not_forall, Bool.not_eq_false, exists_prop]

/-- The two classes of illegal words: no row has the opcode, or the row of the opcode refuses the word. -/
theorem decode_error_iff_reserved (w : Word) :
    (∃ e, decode w = .error e) ↔
      (0xC#32 ≤ w &&& 0xF#32 ∨
        ∃ r ∈ opcodeMap, w &&& 0xF#32 = r.pattern ∧
          ∃ k, 4 ≤ k ∧ r.mask.getLsbD k = true ∧ w.getLsbD k = true) := by
  rw [decode_error_iff, ← BitVec.not_lt, ← exists_row_iff]
  constructor
  · intro hnone
    rw [or_iff_not_imp_left, not_not]
    rintro ⟨r, hr, hop⟩
    exact ⟨r, hr, hop, (not_accepts_iff_reserved_bit hr hop).mp (hnone r hr)⟩
  · intro h r hr
    by_contra ha
    rw [Bool.not_eq_false] at ha
    have hop := opcode_of_accepts r w hr ha
    obtain hreserved | ⟨r', hr', hop', hbit⟩ := h
    · exact hreserved ⟨r, hr, hop⟩
    · have hrow : r'.accepts w = false := (not_accepts_iff_reserved_bit hr' hop').mpr hbit
      obtain rfl := row_eq_of_pattern_eq hr hr' (hop.symm.trans hop')
      rw [ha] at hrow
      cases hrow

end Sys2Proof

namespace Sys2Proof.Machine

/-! The step on an illegal word (R81) -/

/-- STATUS after an illegal word: code 4, with the group and the index 0 (R211). -/
theorem status_illegal : Err.status .illegal = 0x4#32 := by decide

/-- The state error entry leaves after an illegal word: only the record, the events, STATUS and the response
differ from the state before (R212). -/
theorem present_raise_illegal (s : State) (inp : Input) (rest : List HostEvent) :
    (s.present inp rest).raise .illegal = { s with
      inp := inp, host := rest, status := 0x4#32
      out := some { Response.empty with status := 0x4#32 } } := by
  rw [← status_illegal]
  rfl

/-- Settles O4: the two classes are those of the map, and a step on an illegal word is error entry. -/
theorem illegalWordsRaiseIllegal : Obligations.IllegalWordsRaiseIllegal := by
  refine ⟨decode_error_iff_reserved, fun s inp rest e hhost hdec => ?_⟩
  rw [step_command_illegal s inp rest e hhost hdec, present_raise_illegal]

/-! Assembler lines (R82, R83) -/

/-- A line stands for what its tokens stand for. -/
theorem assembleLine_of_tokens {line : String} {ts : List String} {inputs : List Input}
    (hline : tokensFrom [] line.toList = ts) (hts : assembleTokens ts = some inputs) :
    assembleLine line = some inputs := by
  rw [assembleLine, hline, hts]

/-- Settles O56, line by line: first the tokens, then what they stand for. -/
theorem specLinesAssemble : Obligations.SpecLinesAssemble := by
  refine ⟨?_, ?_, ?_, ?_, ?_, ?_⟩
  · exact assembleLine_of_tokens (ts := ["FIELD_WR", "dacs", "3", "0x2A"]) rfl rfl
  · exact assembleLine_of_tokens (ts := ["PIXEL_EN", "0", "4"]) rfl rfl
  · exact assembleLine_of_tokens (ts := ["BUILD", "msb"]) rfl rfl
  · exact assembleLine_of_tokens (ts := ["WAVE_WR", "k=", "2", "load", "bits=", "1", "0", "1"]) rfl rfl
  · exact assembleLine_of_tokens (ts := ["DECODE", "frames=", "04", "00", "00", "01", "00"]) rfl rfl
  · exact assembleLine_of_tokens (ts := ["CONFIGURE", "k=", "1"]) rfl rfl

end Sys2Proof.Machine
end

section
/-! PROOFS. Configuration access: NOP, FIELD_WR, FIELD_RD, PIXEL_EN, and loading a table (spec
40_config_access.md). -/

namespace Sys2Proof

/-! The words of NOP and FIELD_WR -/

/-- The row of NOP keeps every bit of a word and asks that each is 0 (R71). -/
theorem eq_zero_of_accepts_nop {r : OpRow} {w : Word} (hr : r ∈ opcodeMap) (hop : w &&& 0xF#32 = 0#32)
    (ha : r.accepts w = true) : w = 0#32 := by
  have hnop : opcodeMap[0] = r :=
    row_eq_of_pattern_eq (List.getElem_mem _) hr (hop.symm.trans (opcode_of_accepts r w hr ha))
  subst hnop
  have hmeets : w &&& BitVec.allOnes 32 = 0#32 := (OpRow.accepts_iff _ w).mp ha
  rwa [BitVec.and_allOnes] at hmeets

/-- The word of FIELD_WR decodes to the command when the index fits `IDX` (R72). -/
theorem decode_encode_fieldWr (g : Group) {i : Nat} (hi : Fits8 i) :
    decode (encode (.fieldWr g i)) = .ok (.fieldWr g i) := by
  have hrow : decode (encodeF 0x1#4 g i) = .ok (.fieldWr (Group.ofNum (wordBits (encodeF 0x1#4 g i) 5 4))
      (wordBits (encodeF 0x1#4 g i) 15 8)) :=
    decode_of_accepts opcodeMap[1] _ (List.getElem_mem _)
      ((OpRow.accepts_iff _ _).mpr (encodeF_mask 0x1#4 g i))
  have hgrp : wordBits (encodeF 0x1#4 g i) 5 4 = g.num := by
    rw [wordBits_eq_extract, encodeF_grp, Group.toNat_code]
  have hidx : wordBits (encodeF 0x1#4 g i) 15 8 = i := by
    rw [wordBits_eq_extract, encodeF_idx, BitVec.toNat_ofNat, Nat.mod_eq_of_lt hi]
  rw [hgrp, hidx, Group.ofNum_num] at hrow
  exact hrow

end Sys2Proof

namespace Sys2Proof.Machine

/-! The next state, from the effect of a command -/

/-- STATUS after `E_INDEX`: code 3, with the group and the index 0 (R211). -/
theorem status_index : Err.status .index = 0x3#32 := by decide

/-- The next state of a command that completes. -/
theorem exec_of_effect_ok {i : Instr} {s : State} {cfg : Store} {r : Response}
    (h : effectOf i s = .ok (cfg, r)) :
    exec i s = .next { s with
      cfg := cfg, status := 0#32, out := some { r with status := 0#32 } } := by
  rw [exec_eq_complete, h, complete_ok, ← statusOk_eq]
  rfl

theorem exec_of_effect_error {i : Instr} {s : State} {e : Err} (h : effectOf i s = .error e) :
    exec i s = .next (s.raise e) := by
  rw [exec_eq_complete, h, complete_error]

/-- The next state of a command that raises `E_INDEX` (R212). -/
theorem exec_of_effect_index {i : Instr} {s : State} (h : effectOf i s = .error .index) :
    exec i s = .next { s with
      status := 0x3#32, out := some { Response.empty with status := 0x3#32 } } := by
  rw [exec_of_effect_error h, ← status_index]
  rfl

/-- Settles O26: the effect is the answer or the error, and the next state follows from it. -/
theorem fieldRdAnswersSlot : Obligations.FieldRdAnswersSlot :=
  ⟨fun s g i h => exec_of_effect_ok (effect_fieldRd_ok s g i h),
    fun s g i h => exec_of_effect_index (effect_fieldRd_index s g i h)⟩

/-- Settles O29: a missing column and a missing row raise the same error. -/
theorem pixelEnChecksRange : Obligations.PixelEnChecksRange :=
  fun s c r h => exec_of_effect_index (effect_pixelEn_index s c r h)

/-- Settles O24: every row but NOP's has another opcode, and NOP's row accepts 0 alone. -/
theorem nopOnlyClearsStatus : Obligations.NopOnlyClearsStatus := by
  refine ⟨fun s => exec_of_effect_ok (i := .nop) rfl, by decide, fun w hop hne => ?_⟩
  rw [decode_error_iff]
  intro r hr
  by_contra ha
  exact hne (eq_zero_of_accepts_nop hr hop (by simpa using ha))

/-! One field written -/

/-- The state with the slot of one field stored, STATUS OK and nothing else answered (R28, R58). -/
def State.written (s : State) (g : Group) (i : Nat) (v : Slot) : State :=
  { s with cfg := writeField s.cfg g i v, status := 0#32, out := some Response.empty }

theorem exec_fieldWr {s : State} {g : Group} {i : Nat} (h : i < s.params.count g) :
    exec (.fieldWr g i) s = .next (s.written g i s.inp.din) :=
  exec_of_effect_ok (effect_fieldWr_ok s g i h)

theorem exec_pixelEn {s : State} {c r : Nat} (hc : c < s.params.nCol) (hr : r < s.params.nRows) :
    exec (.pixelEn c r) s =
      .next (s.written .columns c (enableRow s.params r (readField s.cfg .columns c))) :=
  exec_of_effect_ok (effect_pixelEn_ok s c r hc hr)

theorem readField_written_same {s : State} {g : Group} {i : Nat} (hs : s.cfg.Shaped s.params)
    (h : i < s.params.count g) (v : Slot) : readField (s.written g i v).cfg g i = v :=
  readField_writeField_same s.cfg g i v (by rwa [length_group_of_shaped hs])

theorem readField_written_other {g g' : Group} {i j : Nat} (s : State) (v : Slot)
    (h : g' = g → j ≠ i) : readField (s.written g i v).cfg g' j = readField s.cfg g' j :=
  readField_writeField_other s.cfg g g' i j v h

theorem shaped_written {s : State} (hs : s.cfg.Shaped s.params) (g : Group) (i : Nat) (v : Slot) :
    (s.written g i v).cfg.Shaped s.params :=
  shaped_writeField g i v hs

/-- Settles O25: one slot is written, whatever the value. -/
theorem fieldWrStoresWholeSlot : Obligations.FieldWrStoresWholeSlot := by
  refine ⟨fun s g i hs hi => ⟨s.written g i s.inp.din, exec_fieldWr hi, ?_, ?_, ?_, rfl⟩,
    fun s g i h => exec_of_effect_index (effect_fieldWr_index s g i h)⟩
  · exact readField_written_same hs hi _
  · exact fun g' j => readField_written_other s _
  · exact shaped_written hs g i _

/-! The mask bits of a column (R103) -/

/-- At a row's mask bit the new column word has a 1 exactly for the row enabled. -/
theorem getLsbD_enableRow_rowPos {p : Params} (hp : p.Admissible) {q r : Nat} (hq : q < p.nRows)
    (hr : r < p.nRows) (w : Slot) : (enableRow p r w).getLsbD (p.rowPos q) = decide (q = r) := by
  have hmask : (allMask p).getLsbD (p.rowPos q) = true := (getLsbD_allMask hp _).mpr ⟨q, hq, rfl⟩
  have hrow : p.rowPos r = p.rowPos q ↔ q = r :=
    ⟨fun h => rowPos_inj hp hq hr h.symm, fun h => h ▸ rfl⟩
  have hlt := rowPos_lt hp q
  rw [getLsbD_enableRow hp r w _ (by omega), hmask]
  simp [hrow]

/-- At a bit that is no mask bit the column word keeps its value. -/
theorem getLsbD_enableRow_of_not_mask {p : Params} (hp : p.Admissible) {r k : Nat} (hr : r < p.nRows)
    (w : Slot) (hk : ∀ q, q < p.nRows → p.rowPos q ≠ k) :
    (enableRow p r w).getLsbD k = w.getLsbD k := by
  by_cases hlt : k < 64
  · have hmask : (allMask p).getLsbD k = false := by
      rw [← Bool.not_eq_true, getLsbD_allMask hp]
      rintro ⟨q, hq, hpos⟩
      exact hk q hq hpos
    rw [getLsbD_enableRow hp r w k hlt, hmask]
    simp [hk r hr]
  · rw [BitVec.getLsbD_of_ge _ _ (by omega), BitVec.getLsbD_of_ge _ _ (by omega)]

/-- Settles O28: one slot is written, with the column word that has the row as its only mask bit. -/
theorem pixelEnSetsExactlyOneMaskBit : Obligations.PixelEnSetsExactlyOneMaskBit := by
  intro s c r hp hs hc hr
  refine ⟨_, exec_pixelEn hc hr, fun q hq => ?_, fun k hk => ?_, fun g j => ?_, ?_, rfl⟩
  · rw [readField_written_same hs hc, getLsbD_enableRow_rowPos hp hq hr]
  · rw [readField_written_same hs hc, getLsbD_enableRow_of_not_mask hp hr _ hk]
  · exact readField_written_other s _
  · exact shaped_written hs .columns c _

/-! Values too wide for their field (R101, R122) -/

/-- A store with a value too wide for its field is not in range. -/
theorem not_inRange_of_wide {cfg : Store} {g : Group} {i : Nat} (hi : i < (cfg.group g).length)
    (h : 2 ^ g.width ≤ (readField cfg g i).toNat) : ¬ cfg.InRange :=
  fun hrange => absurd ((inRange_iff cfg).mp hrange g i hi) (Nat.not_lt.mpr h)

/-- Each serializing command raises `E_OVERFLOW` on a store that is not in range. -/
theorem effect_overflow {s : State} {k : Nat} {l m : Bool} {c : Instr} (h : ¬ s.cfg.InRange) (hk : k ≠ 0)
    (hc : c ∈ [Instr.build m, .configWr k l m, .configRb k m]) :
    ∃ g i, effectOf c s = .error (.overflow g i) := by
  obtain ⟨g, i, -, hser⟩ := serialize_overflow m h
  refine ⟨g, i, ?_⟩
  simp only [List.mem_cons, List.not_mem_nil, or_false] at hc
  obtain rfl | rfl | rfl := hc
  · rw [effect_build, hser]; rfl
  · rw [effect_configWr s k l m hk, hser]; rfl
  · rw [effect_configRb s k m hk, hser]; rfl

/-- Settles O27: the value stands in the store, which is then not in range. -/
theorem wideValueStoredThenOverflows : Obligations.WideValueStoredThenOverflows := by
  intro s g i hs hi hwide
  have hread := readField_written_same hs hi s.inp.din
  refine ⟨s.written g i s.inp.din, exec_fieldWr hi, rfl, hread, fun k l m hk c hc => ?_⟩
  have hrange : ¬ (s.written g i s.inp.din).cfg.InRange := by
    apply not_inRange_of_wide (g := g) (i := i)
    · rwa [length_group_of_shaped (shaped_written hs g i _)]
    · rwa [hread]
  obtain ⟨g', j, heff⟩ := effect_overflow hrange hk hc
  exact ⟨_, exec_of_effect_error heff, statusCode_error (.overflow g' j), rfl⟩

/-! Loading a table (R83, R104) -/

/-- The store after the rows of a table are written over it, in table order. -/
def loadRows (cfg : Store) (rows : List TableRow) : Store :=
  rows.foldl (fun cfg row => writeField cfg row.group row.index row.value) cfg

theorem loadRows_cons (cfg : Store) (row : TableRow) (rows : List TableRow) :
    loadRows cfg (row :: rows) = loadRows (writeField cfg row.group row.index row.value) rows := rfl

/-- The step on a row's FIELD_WR writes the row. -/
theorem step_fieldWrInput {s : State} {row : TableRow} {rest : List HostEvent}
    (hhost : s.host = .command (fieldWrInput row) :: rest) (hfits : Fits8 row.index)
    (hi : row.index < s.params.count row.group) :
    step s = .next ((s.present (fieldWrInput row) rest).written row.group row.index row.value) :=
  (step_command_ok s _ rest _ hhost (decode_encode_fieldWr row.group hfits)).trans (exec_fieldWr hi)

/-- The run over a table's commands writes its rows, and takes these events alone. -/
theorem run_loadTable (rows : List TableRow) (rest : List HostEvent) (s : State)
    (hrows : ∀ row ∈ rows, Fits8 row.index ∧ row.index < s.params.count row.group)
    (hhost : s.host = commandsOf (loadTableInputs rows) ++ rest) :
    ∃ t : State, Host.Core.run Sys2Proof.core rows.length s = .next t ∧ t.cfg = loadRows s.cfg rows ∧
      t.host = rest ∧ t.params = s.params := by
  induction rows generalizing s with
  | nil => exact ⟨s, run_zero s, rfl, hhost, rfl⟩
  | cons row rows ih =>
    obtain ⟨hfits, hi⟩ := hrows row List.mem_cons_self
    have hstep := step_fieldWrInput hhost hfits hi
    obtain ⟨t, hrun, hcfg, hthost, hparams⟩ :=
      ih ((s.present (fieldWrInput row) _).written row.group row.index row.value)
        (fun row' h => hrows row' (List.mem_cons_of_mem _ h)) rfl
    exact ⟨t, (run_succ_next rows.length s _ hstep).trans hrun, hcfg, hthost, hparams⟩

theorem shaped_loadRows {p : Params} (rows : List TableRow) {start : Store} (hs : start.Shaped p) :
    (loadRows start rows).Shaped p := by
  induction rows generalizing start with
  | nil => exact hs
  | cons row rows ih => exact ih (shaped_writeField row.group row.index row.value hs)

/-- Rows that hold the values of a store leave a field with its value there, if a row names the field or it
has that value before. -/
theorem readField_loadRows {p : Params} {cfg : Store} {g : Group} {i : Nat} (hi : i < p.count g)
    (rows : List TableRow) {start : Store} (hs : start.Shaped p)
    (hvalues : ∀ row ∈ rows, row.value = readField cfg row.group row.index)
    (h : readField start g i = readField cfg g i ∨ ∃ row ∈ rows, row.group = g ∧ row.index = i) :
    readField (loadRows start rows) g i = readField cfg g i := by
  induction rows generalizing start with
  | nil =>
    obtain h | ⟨row, hrow, -⟩ := h
    · exact h
    · cases hrow
  | cons row rows ih =>
    rw [loadRows_cons]
    refine ih (shaped_writeField _ _ _ hs) (fun row' h' => hvalues row' (List.mem_cons_of_mem _ h')) ?_
    by_cases hfield : row.group = g ∧ row.index = i
    · obtain ⟨rfl, rfl⟩ := hfield
      left
      rw [readField_writeField_same _ _ _ _ (by rwa [length_group_of_shaped hs]),
        hvalues row List.mem_cons_self]
    · rw [readField_writeField_other _ _ _ _ _ _ fun hg hj => hfield ⟨hg.symm, hj.symm⟩]
      refine h.imp_right fun ⟨row', hrow', hnames⟩ => ⟨row', ?_, hnames⟩
      exact (List.mem_cons.mp hrow').resolve_left fun e => hfield (e ▸ hnames)

/-- Two stores of one shape that agree on every field are one store. -/
theorem store_ext {p : Params} {a b : Store} (ha : a.Shaped p) (hb : b.Shaped p)
    (h : ∀ g i, i < p.count g → readField a g i = readField b g i) : a = b := by
  have hgroup (g : Group) : a.group g = b.group g := by
    have hla := length_group_of_shaped ha g
    have hlb := length_group_of_shaped hb g
    refine List.ext_getElem (hla.trans hlb.symm) fun i hia hib => ?_
    have hread := h g i (hla ▸ hia)
    rwa [readField, readField, List.getD_eq_getElem _ _ hia, List.getD_eq_getElem _ _ hib] at hread
  cases a
  cases b
  rw [Store.mk.injEq]
  exact ⟨hgroup .digital, hgroup .bias, hgroup .dacs, hgroup .columns⟩

/-- The order of serialization runs over exactly the fields that exist. -/
theorem mem_fieldOrder {p : Params} {g : Group} {i : Nat} : (g, i) ∈ fieldOrder p ↔ i < p.count g := by
  cases g <;> simp [fieldOrder, Params.count]

/-- A row of a saved table is a field that exists, with its value. -/
theorem mem_savedTable {p : Params} {cfg : Store} {row : TableRow} :
    row ∈ savedTable p cfg ↔
      row.index < p.count row.group ∧ row.value = readField cfg row.group row.index := by
  rw [savedTable, List.mem_map, ← mem_fieldOrder]
  constructor
  · rintro ⟨⟨g, i⟩, hmem, rfl⟩
    exact ⟨hmem, rfl⟩
  · rintro ⟨hmem, hvalue⟩
    exact ⟨_, hmem, by rw [← hvalue]⟩

/-- A table saved from a store gives that store back, over any store of its shape. -/
theorem loadRows_savedTable {p : Params} {start cfg : Store} (hs : start.Shaped p) (hc : cfg.Shaped p) :
    loadRows start (savedTable p cfg) = cfg := by
  refine store_ext (shaped_loadRows _ hs) hc fun g i hi => ?_
  refine readField_loadRows hi _ hs (fun row hrow => ?_) (.inr ?_)
  · exact (mem_savedTable.mp hrow).2
  · exact ⟨⟨g, i, readField cfg g i⟩, mem_savedTable.mpr ⟨hi, rfl⟩, rfl, rfl⟩

/-- The response of a command is that of its effect, whatever the state. -/
theorem complete_out_congr (s t : State) (res : Except Err (Store × Response)) :
    (s.complete res).out = (t.complete res).out := by
  rcases res with e | ⟨cfg, r⟩ <;> rfl

/-- BUILD answers alike on states with one store. -/
theorem build_out_congr {s t u v : State} {m : Bool} (hcfg : s.cfg = t.cfg)
    (hu : exec (.build m) s = .next u) (hv : exec (.build m) t = .next v) : u.out = v.out := by
  have heff : effectOf (.build m) s = effectOf (.build m) t := by rw [effect_build, effect_build, hcfg]
  rw [exec_eq_complete] at hu hv
  cases hu
  cases hv
  rw [heff]
  exact complete_out_congr s t _

/-- Settles O30: the run writes the saved rows, which give the saved store, and BUILD reads the store
alone. -/
theorem tableRoundTrip : Obligations.TableRoundTrip := by
  intro s cfg rest hp hs hc hhost
  have hrows : ∀ row ∈ savedTable s.params cfg,
      Fits8 row.index ∧ row.index < s.params.count row.group := by
    intro row hrow
    obtain ⟨hi, -⟩ := mem_savedTable.mp hrow
    exact ⟨hi.trans_le (Params.count_le_of_admissible hp row.group), hi⟩
  obtain ⟨t, hrun, hcfg, hthost, hparams⟩ := run_loadTable _ rest s hrows hhost
  rw [loadRows_savedTable hs hc] at hcfg
  exact ⟨t, hrun, hcfg, hthost, hparams, fun m u v => build_out_congr hcfg⟩

end Sys2Proof.Machine
end

section
/-! PROOFS. The bit-vector serializer and BUILD (spec 41_serializer.md). -/

namespace Sys2Proof.Machine

/-! BUILD on a store in range (R123, R124) -/

/-- What BUILD with `M = m` answers on a store in range. -/
def buildResponse (cfg : Store) (m : Bool) : Response :=
  { Response.empty with bv := if m then concatBits cfg else (concatBits cfg).reverse }

theorem buildResponse_false_bv (cfg : Store) :
    (buildResponse cfg false).bv = (buildResponse cfg true).bv.reverse := rfl

/-- Reversing the bits keeps their number. -/
theorem length_buildResponse {p : Params} {cfg : Store} (hs : cfg.Shaped p) (m : Bool) :
    (buildResponse cfg m).bv.length = p.nbits := by
  cases m with
  | false => exact List.length_reverse.trans (length_concatBits hs)
  | true => exact length_concatBits hs

/-- The next state after BUILD on a store in range. -/
theorem exec_build_response {s : State} (m : Bool) (h : s.cfg.InRange) :
    exec (.build m) s = .next { s with status := 0#32, out := some (buildResponse s.cfg m) } :=
  exec_build_of_inRange m h

/-- Settles O32: the answer is a function of the store and `M`, and the two answers are one list of `NBITS`
bits read from its two ends. -/
theorem buildLengthAndReversal : Obligations.BuildLengthAndReversal := by
  intro s hs hrange
  refine ⟨buildResponse s.cfg false, buildResponse s.cfg true, exec_build_response false hrange,
    exec_build_response true hrange, buildResponse_false_bv s.cfg, ?_, length_buildResponse hs false,
    fun j hj => ?_, fun u m hcfg => ?_⟩
  · rw [buildResponse_false_bv, List.reverse_reverse]
  · rw [buildResponse_false_bv, List.length_reverse] at hj ⊢
    exact List.getElem?_reverse hj
  · rw [exec_build_response m (hcfg ▸ hrange), hcfg]
    cases m <;> rfl

/-! The first field out of range (R122) -/

/-- In a group, the overflow found is the least index that is out of range. -/
theorem overflowIn_eq_some {cfg : Store} {g : Group} {i : Nat} (hi : i < (cfg.group g).length)
    (hwide : 2 ^ g.width ≤ (readField cfg g i).toNat)
    (hbefore : ∀ j < i, (readField cfg g j).toNat < 2 ^ g.width) : overflowIn cfg g = some (g, i) := by
  rw [overflowIn, findIdx?_first _ _ _ hi hwide hbefore]
  rfl

/-- Over the store, the overflow found is that of the least group that has one. -/
theorem firstOverflow_of_overflowIn {cfg : Store} {g : Group} {i : Nat}
    (hg : overflowIn cfg g = some (g, i)) (hbefore : ∀ g', g'.num < g.num → overflowIn cfg g' = none) :
    firstOverflow cfg = some (g, i) := by
  rw [firstOverflow]
  cases g with
  | digital => rw [hg]; rfl
  | bias => rw [hbefore .digital (by decide), hg]; rfl
  | dacs => rw [hbefore .digital (by decide), hbefore .bias (by decide), hg]; rfl
  | columns =>
    rw [hbefore .digital (by decide), hbefore .bias (by decide), hbefore .dacs (by decide), hg]; rfl

/-- The overflow found is the least field out of range in serialization order. -/
theorem firstOverflow_eq_some {cfg : Store} {g : Group} {i : Nat} (hi : i < (cfg.group g).length)
    (hwide : 2 ^ g.width ≤ (readField cfg g i).toNat)
    (hbefore : ∀ g' j, FieldBefore g' j g i → j < (cfg.group g').length →
      (readField cfg g' j).toNat < 2 ^ g'.width) :
    firstOverflow cfg = some (g, i) := by
  refine firstOverflow_of_overflowIn (overflowIn_eq_some hi hwide fun j hj => ?_) fun g' hg' => ?_
  · exact hbefore g j (.inr ⟨rfl, hj⟩) (hj.trans hi)
  · rw [overflowIn_eq_none]
    exact all_fitsWidth _ _ fun j hj => hbefore g' j (.inl hg') hj

/-- The next state after BUILD when a field is out of range. -/
theorem exec_build_of_firstOverflow {s : State} {g : Group} {i : Nat} (m : Bool)
    (h : firstOverflow s.cfg = some (g, i)) :
    exec (.build m) s = .next (s.raise (.overflow g i)) := by
  apply exec_of_effect_error
  rw [effect_build, serialize, h]
  rfl

/-- The code of `E_OVERFLOW` is not 0 (R211). -/
theorem status_overflow_ne_zero (g : Group) (i : Nat) : (Err.overflow g i).status ≠ 0#32 := by
  intro h
  have hcode : statusCode 0#32 = 1#4 := h ▸ statusCode_error (.overflow g i)
  exact absurd hcode (by decide)

/-- BUILD succeeds exactly on a store in range. -/
theorem status_build_eq_zero_iff {s t : State} {m : Bool} (h : exec (.build m) s = .next t) :
    t.status = 0#32 ↔ s.cfg.InRange := by
  rw [← firstOverflow_eq_none]
  match hf : firstOverflow s.cfg with
  | none =>
    rw [exec_build_response m ((firstOverflow_eq_none _).mp hf)] at h
    cases h
    exact iff_of_true rfl rfl
  | some (g, i) =>
    rw [exec_build_of_firstOverflow m hf] at h
    cases h
    exact iff_of_false (status_overflow_ne_zero g i) (Option.some_ne_none _)

/-- Settles O33: the error is the overflow found, and none is found exactly when every field fits. -/
theorem buildReportsFirstOverflow : Obligations.BuildReportsFirstOverflow :=
  ⟨fun _ m _ _ hi hwide hbefore =>
    exec_build_of_firstOverflow m (firstOverflow_eq_some hi hwide hbefore),
    fun s _ _ h => (status_build_eq_zero_iff h).trans (inRange_iff s.cfg)⟩

end Sys2Proof.Machine
end

section
/-! PROOFS. The clock-divided byte-waveform encoder (spec 42_waveform.md). -/

namespace Sys2Proof.Machine

/-! Clock division (R142) -/

/-- Where copy `e` of byte `j` stands. -/
theorem getElem?_divideClock (bytes : List Byte) {k e : Nat} (j : Nat) (he : e < k) :
    (divideClock bytes k)[j * k + e]? = bytes[j]? := by
  have hcopy (x : Byte) : (List.replicate k x)[e]? = some x := List.getElem?_replicate_of_lt he
  rw [divideClock, Nat.mul_comm, getElem?_flatMap_const _ k (fun _ => List.length_replicate) _ _ _ he,
    funext hcopy, Option.bind_fun_some]

theorem length_divideClock (bytes : List Byte) (k : Nat) :
    (divideClock bytes k).length = bytes.length * k :=
  length_flatMap_const _ k (fun _ => List.length_replicate) bytes

/-- Settles O41: the copies of a byte are a piece of length `k`, one piece after the other. -/
theorem clockDivisionRepeatsInPlace : Obligations.ClockDivisionRepeatsInPlace :=
  fun bytes _ _ j _ he => getElem?_divideClock bytes j he

/-! The undivided waveforms, byte by byte (R144, R145) -/

section Raw
variable (p : Params) {bits : List Bool}

/-- Byte `q` of bit `j` in write mode. -/
theorem getElem?_rawWrite_bit {l b : Bool} {j q : Nat} (hj : bits[j]? = some b) (hq : q < 5) :
    (rawWrite p bits l)[5 * j + q]? = (microPattern p b)[q]? := by
  have hlt : j < bits.length := (List.getElem?_eq_some_iff.mp hj).1
  have hlen := length_flatMap_const _ 5 (length_microPattern p) bits
  rw [rawWrite, List.getElem?_append_left (by omega),
    getElem?_flatMap_const _ 5 (length_microPattern p) _ _ _ hq, hj, Option.bind_some]

/-- Byte `q` of the load strobe, behind the bits. -/
theorem getElem?_rawWrite_load (q : Nat) :
    (rawWrite p bits true)[5 * bits.length + q]? = (loadPulse p)[q]? := by
  have hlen := length_flatMap_const _ 5 (length_microPattern p) bits
  rw [rawWrite, List.getElem?_append_right (by omega), hlen, Nat.mul_comm, Nat.add_sub_cancel_left,
    if_pos rfl]

/-- Byte `q` of the read-back header, before the bits. -/
theorem getElem?_rawReadBack_header {q : Nat} (hq : q < 5) :
    (rawReadBack p bits)[q]? = p.rbHeader.toList[q]? :=
  List.getElem?_append_left hq

/-- Byte `q` of bit `j` in read-back mode. -/
theorem getElem?_rawReadBack_bit {j q : Nat} (hj : j < bits.length) (hq : q < 5) :
    (rawReadBack p bits)[5 + 5 * j + q]? = (readBackPattern p)[q]? := by
  have hheader : p.rbHeader.toList.length = 5 := rfl
  rw [rawReadBack, Nat.add_assoc, List.getElem?_append_right (by omega), hheader, Nat.add_sub_cancel_left,
    getElem?_flatMap_const _ 5 (fun _ => rfl) _ _ _ hq, List.getElem?_eq_getElem hj, Option.bind_some]

/-- The read-back waveform depends on the number of bits alone (R143). -/
theorem rawReadBack_congr {bits' : List Bool} (h : bits.length = bits'.length) :
    rawReadBack p bits = rawReadBack p bits' := by
  rw [rawReadBack, rawReadBack, List.flatMap_def, List.flatMap_def, List.map_const', List.map_const', h]

end Raw

/-! The responses -/

/-- In write mode the expected length is the waveform's (R148). -/
theorem length_writeWave (p : Params) (bits : List Bool) (k : Nat) (l : Bool) :
    (writeWave p bits k l).wave.length = (writeWave p bits k l).explen := by
  rw [writeWave, length_divideClock, length_rawWrite]

/-- In read-back mode the expected length is the waveform's (R148). -/
theorem length_readBackWave (p : Params) (bits : List Bool) (k : Nat) :
    (readBackWave p bits k).wave.length = (readBackWave p bits k).explen := by
  rw [readBackWave, length_divideClock, length_rawReadBack]

theorem readBackWave_congr {p : Params} {bits bits' : List Bool} (k : Nat)
    (h : bits.length = bits'.length) : readBackWave p bits k = readBackWave p bits' k := by
  rw [readBackWave, readBackWave, rawReadBack_congr p h, h]

/-! WAVE_WR and WAVE_RB (R144, R145) -/

/-- The next state after WAVE_WR. -/
theorem exec_waveWr (s : State) {k : Nat} (l : Bool) (hk : k ≠ 0) :
    exec (.waveWr k l) s =
      .next { s with status := 0#32, out := some (writeWave s.params s.inp.bits k l) } :=
  exec_of_effect_ok (effect_waveWr_ok s k l hk)

/-- The next state after WAVE_RB. -/
theorem exec_waveRb (s : State) {k : Nat} (hk : k ≠ 0) :
    exec (.waveRb k) s =
      .next { s with status := 0#32, out := some (readBackWave s.params s.inp.bits k) } :=
  exec_of_effect_ok (effect_waveRb_ok s k hk)

/-- Settles O35: each byte is a copy of the undivided byte, which is one of a bit's pattern or of the load
strobe. -/
theorem waveWrBytes : Obligations.WaveWrBytes := by
  intro s k l hk
  refine ⟨_, exec_waveWr s l hk, rfl, rfl, length_writeWave _ _ _ _, fun j b q e hj hq he => ?_, ?_⟩
  · exact (getElem?_divideClock _ _ he).trans (getElem?_rawWrite_bit s.params hj hq)
  · rintro rfl q e - he
    exact (getElem?_divideClock _ _ he).trans (getElem?_rawWrite_load s.params q)

/-- Settles O36: each byte is a copy of the undivided byte, which is one of the header or of a bit's
pattern. -/
theorem waveRbBytes : Obligations.WaveRbBytes := by
  intro s k hk
  refine ⟨_, exec_waveRb s hk, rfl, rfl, length_readBackWave _ _ _, fun q e hq he => ?_,
    fun j q e hj hq he => ?_⟩
  · exact (getElem?_divideClock _ _ he).trans (getElem?_rawReadBack_header s.params hq)
  · exact (getElem?_divideClock _ _ he).trans (getElem?_rawReadBack_bit s.params hj hq)

/-! CONFIG_WR and CONFIG_RB (R146, R147) -/

/-- On a store that is not in range a command that serializes the store first ends as BUILD does. -/
theorem exec_eq_build_of_not_inRange {c : Instr} {s : State} {m : Bool}
    {f : List Bool → Store × Response} (hc : effectOf c s = (serialize s.cfg m).map f)
    (h : ¬ s.cfg.InRange) : exec c s = exec (.build m) s := by
  obtain ⟨g, i, hfirst, hser⟩ := serialize_overflow m h
  rw [hser] at hc
  rw [exec_of_effect_error hc, exec_build_of_firstOverflow m hfirst]

/-- On a store that is not in range `M` changes nothing in what BUILD does (R122). -/
theorem exec_build_congr_of_not_inRange {s : State} (m m' : Bool) (h : ¬ s.cfg.InRange) :
    exec (.build m) s = exec (.build m') s := by
  obtain ⟨g, i, hfirst, -⟩ := serialize_overflow m h
  rw [exec_build_of_firstOverflow m hfirst, exec_build_of_firstOverflow m' hfirst]

/-- The next state after CONFIG_WR on a store in range. -/
theorem exec_configWr_of_inRange {s : State} {k : Nat} (l m : Bool) (hk : k ≠ 0) (h : s.cfg.InRange) :
    exec (.configWr k l m) s = .next { s with
      status := 0#32, out := some (writeWave s.params (buildResponse s.cfg m).bv k l) } := by
  have heff := effect_configWr s k l m hk
  rw [serialize_ok m h] at heff
  exact exec_of_effect_ok heff

/-- The next state after CONFIG_RB on a store in range. -/
theorem exec_configRb_of_inRange {s : State} {k : Nat} (m : Bool) (hk : k ≠ 0) (h : s.cfg.InRange) :
    exec (.configRb k m) s = .next { s with
      status := 0#32, out := some (readBackWave s.params (buildResponse s.cfg m).bv k) } := by
  have heff := effect_configRb s k m hk
  rw [serialize_ok m h] at heff
  exact exec_of_effect_ok heff

/-- Settles O38: both ways give the write-mode response for the bits that BUILD answers. -/
theorem configWrIsBuildThenWaveWr : Obligations.ConfigWrIsBuildThenWaveWr := by
  intro s k l m hk
  refine ⟨fun h => ?_, exec_eq_build_of_not_inRange (effect_configWr s k l m hk)⟩
  exact ⟨_, _, exec_build_response m h, exec_waveWr _ l hk, exec_configWr_of_inRange l m hk h⟩

/-- Reversed or not, BUILD answers as many bits as the store holds. -/
theorem length_bv_buildResponse (cfg : Store) (m : Bool) :
    (buildResponse cfg m).bv.length = (concatBits cfg).length := by
  cases m with
  | false => exact List.length_reverse
  | true => rfl

/-- `M` changes nothing: it reverses the bits, of which read-back counts only the number. -/
theorem exec_configRb_congr {s : State} {k : Nat} (m m' : Bool) (hk : k ≠ 0) :
    exec (.configRb k m) s = exec (.configRb k m') s := by
  by_cases h : s.cfg.InRange
  · have hlen : (buildResponse s.cfg m).bv.length = (buildResponse s.cfg m').bv.length := by
      rw [length_bv_buildResponse, length_bv_buildResponse]
    rw [exec_configRb_of_inRange m hk h, exec_configRb_of_inRange m' hk h, readBackWave_congr k hlen]
  · rw [exec_eq_build_of_not_inRange (effect_configRb s k m hk) h,
      exec_eq_build_of_not_inRange (effect_configRb s k m' hk) h, exec_build_congr_of_not_inRange m m' h]

/-- Settles O39: both ways give the read-back response for the bits that BUILD answers. -/
theorem configRbIsBuildThenWaveRb : Obligations.ConfigRbIsBuildThenWaveRb := by
  intro s k m hk
  refine ⟨fun h => ?_, exec_eq_build_of_not_inRange (effect_configRb s k m hk),
    exec_configRb_congr m (!m) hk⟩
  exact ⟨_, _, exec_build_response m h, exec_waveRb _ hk, exec_configRb_of_inRange m hk h⟩

/-! Expected length (R148) -/

/-- The expected length in write mode, by the source's formula. -/
theorem explen_writeWave (p : Params) (bits : List Bool) (k : Nat) (l : Bool) :
    (writeWave p bits k l).explen = (bits.length * 5 + if l then 3 else 0) * k := by
  rw [Nat.mul_comm bits.length 5]
  rfl

/-- The expected length in read-back mode, by the source's formula. -/
theorem explen_readBackWave (p : Params) (bits : List Bool) (k : Nat) :
    (readBackWave p bits k).explen = (bits.length + 1) * 5 * k := rfl

/-- The longest waveform of either mode: 11776 bits and the largest divider. -/
theorem explen_formula_le {n k overhead : Nat} (hn : n ≤ 11776) (hk : k < 2 ^ 16) (ho : overhead ≤ 5) :
    (n * 5 + overhead) * k ≤ 3859028475 :=
  calc
    (n * 5 + overhead) * k ≤ (11776 * 5 + 5) * 65535 := Nat.mul_le_mul (by omega) (by omega)
    _ = 3859028475 := rfl

/-- Settles O40: the formulas are the lengths of the two responses, CONFIG_* serializes `NBITS` bits, and
those are at most 11776. -/
theorem expectedLength : Obligations.ExpectedLength := by
  intro s k l m hk hk16
  refine ⟨⟨_, _, exec_waveWr s l hk, rfl, explen_writeWave _ _ _ _, (length_writeWave _ _ _ _).symm⟩,
    ⟨_, _, exec_waveRb s hk, rfl, explen_readBackWave _ _ _, (length_readBackWave _ _ _).symm⟩,
    fun hp hs h => ?_⟩
  have hbits := length_buildResponse hs m
  have hmax := Params.nbits_le_of_admissible hp
  have hwrite := explen_writeWave s.params (buildResponse s.cfg m).bv k l
  have hread := explen_readBackWave s.params (buildResponse s.cfg m).bv k
  rw [hbits] at hwrite hread
  refine ⟨⟨_, _, exec_configWr_of_inRange l m hk h, rfl, hwrite, (length_writeWave _ _ _ _).symm, ?_⟩,
    ⟨_, _, exec_configRb_of_inRange m hk h, rfl, hread, (length_readBackWave _ _ _).symm, ?_⟩⟩
  · rw [hwrite]
    exact explen_formula_le hmax hk16 (by cases l <;> decide)
  · rw [hread, Nat.add_mul]
    exact explen_formula_le hmax hk16 le_rfl

end Sys2Proof.Machine
end

section
/-! PROOFS. The framer: the marker scan, the aligned regions and FRAME (spec 43_framer.md). -/

namespace Sys2Proof.Machine

/-! The scan, one byte at a time (R171) -/

/-- The idle run that ends after the byte `b` at `pos`, when `run` ended before it. -/
def runAfter (p : Params) (b : Byte) (pos : Nat) (run : Option Nat) : Option Nat :=
  if b = p.idleByte then some (run.getD pos) else none

/-- The marker that the byte `b` at `pos` ends, if it ends one. -/
def endedMarker (p : Params) (b : Byte) (pos : Nat) (run : Option Nat) : List Marker :=
  if b ≠ p.idleByte ∧ isTerminator p b = true then run.toList.map (⟨·, pos + 1⟩) else []

/-- One byte of the scan: the marker it ends, if any, then the markers of the bytes after it. -/
theorem scanFrom_cons_eq_append (p : Params) (b : Byte) (rest : List Byte) (pos : Nat)
    (run : Option Nat) :
    scanFrom p (b :: rest) pos run =
      endedMarker p b pos run ++ scanFrom p rest (pos + 1) (runAfter p b pos run) := by
  rw [scanFrom_cons]
  by_cases hb : b = p.idleByte
  · simp [hb, endedMarker, runAfter]
  · cases run with
    | none => simp [hb, endedMarker, runAfter]
    | some s => cases ht : isTerminator p b <;> simp [hb, ht, endedMarker, runAfter]

theorem mem_endedMarker {p : Params} {b : Byte} {pos : Nat} {run : Option Nat} {m : Marker} :
    m ∈ endedMarker p b pos run ↔
      b ≠ p.idleByte ∧ isTerminator p b = true ∧ run = some m.start ∧ m.stop = pos + 1 := by
  obtain ⟨start, stop⟩ := m
  unfold endedMarker
  split
  next h => cases run <;> simp [h.1, h.2, eq_comm]
  next h => exact ⟨fun hm => (nomatch hm), fun ⟨hb, ht, _⟩ => absurd ⟨hb, ht⟩ h⟩

theorem ne_idleByte_of_isTerminator {p : Params} {t : Byte} (hp : p.Admissible)
    (ht : isTerminator p t = true) : t ≠ p.idleByte := by
  rintro rfl
  rw [idleByte_not_terminator hp] at ht
  exact Bool.false_ne_true ht

/-! Idle runs (R170) -/

/-- `run` is the start of the maximal run of idle bytes that ends just before index `pos`, if the byte
there is idle. -/
def IdleRun (p : Params) (bytes : List Byte) (pos : Nat) : Option Nat → Prop
  | none => pos = 0 ∨ bytes[pos - 1]? ≠ some p.idleByte
  | some s => s < pos ∧ (∀ j, s ≤ j → j < pos → bytes[j]? = some p.idleByte) ∧
      (s = 0 ∨ bytes[s - 1]? ≠ some p.idleByte)

/-- R170 by idle runs: a marker is an idle run and a terminator just after it. -/
theorem isMarker_iff {p : Params} {bytes : List Byte} {m : Marker} :
    IsMarker p bytes m ↔ IdleRun p bytes (m.stop - 1) (some m.start) ∧
      ∃ x, bytes[m.stop - 1]? = some x ∧ isTerminator p x = true := by
  simp only [IsMarker, IdleRun, isTerminator, Bool.and_eq_true, decide_eq_true_eq, Nat.lt_sub_iff_add_lt]
  tauto

section Run

variable {p : Params} {bytes : List Byte} {pos : Nat} {run : Option Nat}

/-- The scan keeps `run` the idle run before its position. -/
theorem idleRun_runAfter {b : Byte} (hb : bytes[pos]? = some b) (h : IdleRun p bytes pos run) :
    IdleRun p bytes (pos + 1) (runAfter p b pos run) := by
  unfold runAfter
  split
  next hidle =>
    subst hidle
    cases run with
    | none =>
      refine ⟨Nat.lt_succ_self pos, fun j hj hj' => ?_, h⟩
      rwa [show j = pos by simp at hj; omega]
    | some s =>
      obtain ⟨hs, hall, hmax⟩ := h
      refine ⟨Nat.lt_succ_of_lt hs, fun j hj hj' => ?_, hmax⟩
      obtain hlt | rfl := Nat.lt_succ_iff_lt_or_eq.mp hj'
      · exact hall j hj hlt
      · exact hb
  next hidle =>
    refine .inr ?_
    rw [Nat.add_sub_cancel, hb]
    exact fun h => hidle (Option.some.inj h)

/-- Every position of the buffer has an idle run before it, or none. -/
theorem exists_idleRun (p : Params) (hpos : pos ≤ bytes.length) : ∃ run, IdleRun p bytes pos run := by
  induction pos with
  | zero => exact ⟨none, .inl rfl⟩
  | succ pos ih =>
    obtain ⟨run, hrun⟩ := ih (Nat.le_of_succ_le hpos)
    exact ⟨_, idleRun_runAfter (List.getElem?_eq_getElem hpos) hrun⟩

/-- A maximal run starts no later than any run of idle bytes with the same end. -/
theorem start_le_of_idle {s t : Nat} (h : IdleRun p bytes pos (some s))
    (hall : ∀ j, t ≤ j → j < pos → bytes[j]? = some p.idleByte) : s ≤ t := by
  obtain ⟨hs, -, rfl | hmax⟩ := h
  · exact Nat.zero_le t
  · by_contra hlt
    exact hmax (hall (s - 1) (by omega) (by omega))

/-- A position has one idle run before it. -/
theorem idleRun_unique {run' : Option Nat} (h : IdleRun p bytes pos run) (h' : IdleRun p bytes pos run') :
    run = run' := by
  have not_both {s : Nat} (hn : IdleRun p bytes pos none) (hs : IdleRun p bytes pos (some s)) : False := by
    obtain ⟨hlt, hall, -⟩ := hs
    obtain rfl | hidle := hn
    · exact absurd hlt (Nat.not_lt_zero s)
    · exact hidle (hall (pos - 1) (by omega) (by omega))
  match run, run' with
  | none, none => rfl
  | none, some _ => exact (not_both h h').elim
  | some _, none => exact (not_both h' h).elim
  | some s, some s' =>
    exact congrArg some (Nat.le_antisymm (start_le_of_idle h h'.2.1) (start_le_of_idle h' h.2.1))

/-- A marker is determined by its end. -/
theorem isMarker_unique {m m' : Marker} (h : IsMarker p bytes m) (h' : IsMarker p bytes m')
    (hstop : m.stop = m'.stop) : m = m' := by
  obtain ⟨start, stop⟩ := m
  obtain ⟨start', stop'⟩ := m'
  cases hstop
  have hstart := idleRun_unique (isMarker_iff.mp h).1 (isMarker_iff.mp h').1
  cases hstart
  rfl

theorem stop_le_length {m : Marker} (h : IsMarker p bytes m) : m.stop ≤ bytes.length := by
  obtain ⟨-, x, hx, -⟩ := isMarker_iff.mp h
  have := (List.getElem?_eq_some_iff.mp hx).1
  omega

/-! The scan lists the markers (R170, R171) -/

/-- The byte at `pos` ends the marker that the scan lists there, and no other. -/
theorem mem_endedMarker_iff_isMarker {b : Byte} {m : Marker} (hp : p.Admissible)
    (hb : bytes[pos]? = some b) (hrun : IdleRun p bytes pos run) :
    m ∈ endedMarker p b pos run ↔ IsMarker p bytes m ∧ m.stop = pos + 1 := by
  rw [mem_endedMarker, isMarker_iff]
  constructor
  · rintro ⟨-, hterm, rfl, hstop⟩
    rw [hstop]
    exact ⟨⟨hrun, b, hb, hterm⟩, rfl⟩
  · rintro ⟨⟨hidle, x, hx, hterm⟩, hstop⟩
    rw [hstop, Nat.add_sub_cancel] at hidle hx
    obtain rfl := Option.some.inj (hb.symm.trans hx)
    exact ⟨ne_idleByte_of_isTerminator hp hterm, hterm, idleRun_unique hrun hidle, hstop⟩

/-- From a position on, with the idle run before it, the scan lists the markers that end after it. -/
theorem mem_scanFrom_iff (hp : p.Admissible) {m : Marker} {rest : List Byte}
    (hrest : bytes.drop pos = rest) (hrun : IdleRun p bytes pos run) :
    m ∈ scanFrom p rest pos run ↔ IsMarker p bytes m ∧ pos < m.stop := by
  induction rest generalizing pos run with
  | nil =>
    have hlen := List.drop_eq_nil_iff.mp hrest
    refine ⟨fun hm => (nomatch hm), fun ⟨hm, hlt⟩ => ?_⟩
    have := stop_le_length hm
    omega
  | cons b rest ih =>
    have hb : bytes[pos]? = some b := by rw [← List.head?_drop, hrest]; rfl
    have hrest' : bytes.drop (pos + 1) = rest := by rw [← List.tail_drop, hrest]; rfl
    rw [scanFrom_cons_eq_append, List.mem_append, mem_endedMarker_iff_isMarker hp hb hrun,
      ih hrest' (idleRun_runAfter hb hrun), ← and_or_left]
    exact and_congr_right fun _ => by omega

end Run

theorem mem_scanMarkers_iff {p : Params} {bytes : List Byte} {m : Marker} (hp : p.Admissible) :
    m ∈ scanMarkers p bytes ↔ IsMarker p bytes m := by
  have hrun : IdleRun p bytes 0 none := .inl rfl
  rw [scanMarkers, mem_scanFrom_iff hp List.drop_zero hrun, and_iff_left_iff_imp]
  exact fun h => Nat.zero_lt_of_lt h.1

/-- A marker of the scan starts no earlier than the run the scan stands in, and has at least an idle byte
and a terminator. -/
theorem bounds_of_mem_scanFrom {p : Params} {bytes : List Byte} {pos : Nat} {run : Option Nat} {m : Marker}
    (hrun : ∀ s, run = some s → s < pos) (hm : m ∈ scanFrom p bytes pos run) :
    run.getD pos ≤ m.start ∧ m.start + 1 < m.stop := by
  induction bytes generalizing pos run with
  | nil => exact nomatch hm
  | cons b rest ih =>
    rw [scanFrom_cons_eq_append, List.mem_append, mem_endedMarker] at hm
    obtain ⟨-, -, hstart, hstop⟩ | hm := hm
    · have := hrun _ hstart
      subst hstart
      exact ⟨le_rfl, by omega⟩
    · have hget : run.getD pos ≤ pos := by
        cases run with
        | none => exact le_rfl
        | some s => exact (hrun s rfl).le
      unfold runAfter at hm
      split at hm
      · exact ih (run := some _) (fun s hs => Option.some.inj hs ▸ Nat.lt_succ_of_le hget) hm
      · obtain ⟨hle, hlt⟩ := ih (run := none) (by simp) hm
        rw [Option.getD_none] at hle
        exact ⟨by omega, hlt⟩

theorem start_succ_lt_stop_of_mem_scanMarkers {p : Params} {bytes : List Byte} {m : Marker}
    (hm : m ∈ scanMarkers p bytes) : m.start + 1 < m.stop :=
  (bounds_of_mem_scanFrom (by simp) hm).2

/-- Each marker of the scan ends before the next begins: after a terminator no idle run goes on. -/
theorem pairwise_scanFrom (p : Params) (bytes : List Byte) (pos : Nat) (run : Option Nat) :
    (scanFrom p bytes pos run).Pairwise (fun m m' => m.stop ≤ m'.start) := by
  induction bytes generalizing pos run with
  | nil => exact .nil
  | cons b rest ih =>
    rw [scanFrom_cons_eq_append, List.pairwise_append]
    refine ⟨?_, ih _ _, fun m hm m' hm' => ?_⟩
    · unfold endedMarker
      split
      next => cases run <;> simp
      next => exact .nil
    · obtain ⟨hb, -, -, hstop⟩ := mem_endedMarker.mp hm
      rw [runAfter, if_neg hb] at hm'
      rw [hstop]
      exact (bounds_of_mem_scanFrom (by simp) hm').1

/-- Settles O44: at every position the scan knows the idle run before it, so it lists a marker exactly
where R170 has one end. -/
theorem scanFindsExactlyTheMarkers : Obligations.ScanFindsExactlyTheMarkers :=
  fun p bytes hp => ⟨fun _ => mem_scanMarkers_iff hp, pairwise_scanFrom p bytes 0 none⟩

/-- The markers of the scan end in increasing order. -/
theorem pairwise_stop_scanMarkers (p : Params) (bytes : List Byte) :
    (scanMarkers p bytes).Pairwise (fun m m' => m.stop < m'.stop) := by
  refine (pairwise_scanFrom p bytes 0 none).imp_of_mem fun _ hm' hle => ?_
  have := start_succ_lt_stop_of_mem_scanMarkers hm'
  omega

/-! Collapse (R172) -/

theorem collapse_cons_cons (a b : Marker) (rest : List Marker) :
    collapse (a :: b :: rest) =
      if a.stop = b.stop then collapse (a :: rest) else a :: collapse (b :: rest) := by
  simp only [collapse, collapseAfter, eq_comm (a := b.stop)]
  split <;> rfl

/-- Markers with different ends are all kept. -/
theorem collapse_eq_self {l : List Marker} (h : l.Pairwise (fun m m' => m.stop < m'.stop)) :
    collapse l = l := by
  match l with
  | [] | [_] => rfl
  | a :: b :: rest =>
    obtain ⟨hlt, htail⟩ := List.pairwise_cons.mp h
    rw [collapse_cons_cons, if_neg (hlt b List.mem_cons_self).ne, collapse_eq_self htail]

theorem collapse_scanMarkers (p : Params) (bytes : List Byte) :
    collapse (scanMarkers p bytes) = scanMarkers p bytes :=
  collapse_eq_self (pairwise_stop_scanMarkers p bytes)

/-- Settles O45: the ends of the scan's markers increase, so no two of them are equal. -/
theorem collapseKeepsScan : Obligations.CollapseKeepsScan :=
  ⟨collapse_cons_cons, collapse_scanMarkers⟩

/-! The aligned start (R173) -/

theorem alignedStart_eq (prev cur : Marker) :
    alignedStart prev cur = prev.stop + 5 * ((cur.start - prev.stop + 5 - 1) / 5) := rfl

/-- Settles O46: `ceil_div` rounds the gap up to the next multiple of 5. -/
theorem alignedStartRoundsUp : Obligations.AlignedStartRoundsUp := by
  intro prev cur h
  rw [alignedStart_eq]
  exact ⟨rfl, by omega, fun n hn => by omega⟩

/-! The frames of a region (R174) -/

/-- Chunk `j` is the five bytes at `5 * j` past the start, when the limit, the fuel and the buffer reach
past it; the chunks before it are then there too. -/
theorem getElem?_chunksTo (bytes : List Byte) (limit fuel start j : Nat) (f : Frame) :
    (chunksTo bytes limit fuel start)[j]? = some f ↔
      j < fuel ∧ start + 5 * j + 5 ≤ limit ∧ frameAt bytes (start + 5 * j) = some f := by
  induction fuel generalizing start j with
  | zero => simp [chunksTo]
  | succ fuel ih =>
    rw [chunksTo]
    split
    next hlimit =>
      cases hf : frameAt bytes start with
      | none =>
        have hend : ¬ start + 5 ≤ bytes.length := fun h => by
          obtain ⟨f, hf'⟩ := frameAt_some h
          exact nomatch hf.symm.trans hf'
        refine ⟨fun h => (nomatch h), fun ⟨_, _, h⟩ => ?_⟩
        have := ((frameAt_iff _ _ _).mp h).1
        omega
      | some f' =>
        cases j with
        | zero => simp [hlimit, hf]
        | succ j =>
          rw [List.getElem?_cons_succ, ih, show start + 5 + 5 * j = start + 5 * (j + 1) by omega]
          exact and_congr_left fun _ => by omega
    next hlimit =>
      refine ⟨fun h => (nomatch h), fun ⟨_, h, _⟩ => ?_⟩
      omega

theorem getElem?_regionFrames {bytes : List Byte} {prev cur : Marker} {j : Nat} {f : Frame} :
    (regionFrames bytes prev cur)[j]? = some f ↔
      prev.stop + 5 * j + 5 ≤ alignedStart prev cur ∧ prev.stop + 5 * j + 5 ≤ bytes.length ∧
        f.toList = (bytes.drop (prev.stop + 5 * j)).take 5 := by
  rw [regionFrames, getElem?_chunksTo, frameAt_iff]
  refine and_iff_right_of_imp fun ⟨_, hlen, _⟩ => ?_
  omega

/-- Frame `j` of a region is there when its chunk lies before the aligned start and in the buffer. -/
theorem lt_length_regionFrames {bytes : List Byte} {prev cur : Marker} {j : Nat} :
    j < (regionFrames bytes prev cur).length ↔
      prev.stop + 5 * j + 5 ≤ alignedStart prev cur ∧ prev.stop + 5 * j + 5 ≤ bytes.length := by
  constructor
  · intro h
    obtain ⟨halign, hlen, -⟩ := getElem?_regionFrames.mp (List.getElem?_eq_getElem h)
    exact ⟨halign, hlen⟩
  · rintro ⟨halign, hlen⟩
    obtain ⟨f, hf⟩ := frameAt_some hlen
    have := getElem?_regionFrames.mpr ⟨halign, (frameAt_iff _ _ _).mp hf⟩
    exact (List.getElem?_eq_some_iff.mp this).1

/-- The number of frames of a region that the buffer holds to its aligned start. -/
theorem length_regionFrames {bytes : List Byte} {prev cur : Marker}
    (h : alignedStart prev cur ≤ bytes.length) :
    (regionFrames bytes prev cur).length = (cur.start - prev.stop + 5 - 1) / 5 := by
  refine eq_of_forall_lt_iff fun j => ?_
  rw [lt_length_regionFrames]
  rw [alignedStart_eq] at h ⊢
  omega

/-- Abutting markers have no frame between them. -/
theorem regionFrames_abutting (bytes : List Byte) {prev cur : Marker} (h : cur.start = prev.stop) :
    regionFrames bytes prev cur = [] := by
  have hnone : ¬ 0 < (regionFrames bytes prev cur).length := by
    rw [lt_length_regionFrames, alignedStart_eq]
    omega
  exact List.eq_nil_of_length_eq_zero (Nat.eq_zero_of_not_pos hnone)

/-- Settles O47: a chunk is listed exactly when it is whole, and counting the chunks gives the length. -/
theorem regionFramesAreChunks : Obligations.RegionFramesAreChunks :=
  fun _ _ _ _ => ⟨fun _ _ => getElem?_regionFrames, length_regionFrames⟩

/-! FRAME (R175) -/

/-- What FRAME answers, for a buffer already corrected. -/
def frameResponse (p : Params) (bytes : List Byte) : Response :=
  { Response.empty with frames := extractFrames bytes (scanMarkers p bytes) }

/-- The next state after FRAME: collapse changes nothing, and no data raises an error. -/
theorem exec_frame (s : State) (v : Bool) :
    exec (.frame v) s = .next { s with
      status := 0#32, out := some (frameResponse s.params (bitCorrect v s.inp.bytes)) } := by
  rw [exec_of_effect_ok (effect_frame s v), framesOf, collapse_scanMarkers]
  rfl

theorem extractFrames_eq_flatMap (bytes : List Byte) (l : List Marker) :
    extractFrames bytes l = (l.zip l.tail).flatMap (fun mm => regionFrames bytes mm.1 mm.2) := by
  cases l with
  | nil => rfl
  | cons m rest => exact extractAfter_eq bytes rest m

/-- Settles O48: the extraction goes over the consecutive markers of the scan. -/
theorem frameAnswersRegions : Obligations.FrameAnswersRegions :=
  fun s v => ⟨_, exec_frame s v, rfl, extractFrames_eq_flatMap _ _⟩

/-- FRAME without `V`, from the frames it extracts. -/
theorem exec_frame_of_extractFrames {s : State} {fs : List Frame}
    (h : extractFrames s.inp.bytes (scanMarkers s.params s.inp.bytes) = fs) :
    exec (.frame false) s = .next { s with
      status := 0#32, out := some { Response.empty with frames := fs } } := by
  rw [← h]
  exact exec_frame s false

/-! Buffers without a region (R175, R176) -/

/-- A scan with at most one marker has no region. -/
theorem extractFrames_of_subsingleton {p : Params} {bytes : List Byte}
    (h : ∀ m ∈ scanMarkers p bytes, ∀ m' ∈ scanMarkers p bytes, m = m') :
    extractFrames bytes (scanMarkers p bytes) = [] := by
  have hsorted := pairwise_stop_scanMarkers p bytes
  match hl : scanMarkers p bytes with
  | [] | [_] => rfl
  | a :: b :: rest =>
    rw [hl] at h hsorted
    have hlt := (List.pairwise_cons.mp hsorted).1 b List.mem_cons_self
    rw [h a List.mem_cons_self b (List.mem_cons_of_mem _ List.mem_cons_self)] at hlt
    exact absurd hlt (lt_irrefl _)

/-- At the bytes of a whole marker, outside an idle run, the scan lists that marker. -/
theorem scanFrom_markerBytes {p : Params} (hp : p.Admissible) {t : Byte} (ht : isTerminator p t = true)
    (n : Nat) (rest : List Byte) (pos : Nat) :
    scanFrom p ((List.replicate (n + 1) p.idleByte ++ [t]) ++ rest) pos none =
      ⟨pos, pos + n + 2⟩ :: scanFrom p rest (pos + n + 2) none := by
  have hne := ne_idleByte_of_isTerminator hp ht
  rw [List.append_assoc, scanFrom_idle, List.singleton_append, scanFrom_cons_eq_append]
  simp [endedMarker, runAfter, hne, ht]

/-- Among markers put end to end, consecutive ones abut. -/
theorem extractAfter_markersOnly {p : Params} (hp : p.Admissible) (bytes : List Byte)
    {ms : List (Nat × Byte)} (hms : ∀ m ∈ ms, isTerminator p m.2 = true) (prev : Marker) :
    extractAfter bytes prev (scanFrom p
      (ms.flatMap fun m => List.replicate (m.1 + 1) p.idleByte ++ [m.2]) prev.stop none) = [] := by
  induction ms generalizing prev with
  | nil => rfl
  | cons m ms ih =>
    obtain ⟨hm, hms⟩ := List.forall_mem_cons.mp hms
    rw [List.flatMap_cons, scanFrom_markerBytes hp hm, extractAfter, regionFrames_abutting _ rfl]
    exact ih hms _

theorem extractFrames_markersOnly {p : Params} (hp : p.Admissible) (bytes : List Byte)
    {ms : List (Nat × Byte)} (hms : ∀ m ∈ ms, isTerminator p m.2 = true) :
    extractFrames bytes (scanMarkers p
      (ms.flatMap fun m => List.replicate (m.1 + 1) p.idleByte ++ [m.2])) = [] := by
  cases ms with
  | nil => rfl
  | cons m ms =>
    obtain ⟨hm, hms⟩ := List.forall_mem_cons.mp hms
    rw [scanMarkers, List.flatMap_cons, scanFrom_markerBytes hp hm]
    exact extractAfter_markersOnly hp bytes hms ⟨0, 0 + m.1 + 2⟩

/-- Settles O50: one marker has no region, and the regions between abutting markers are empty. -/
theorem noFramesWithoutGap : Obligations.NoFramesWithoutGap := by
  refine ⟨fun s hone hp => ?_, fun s ms hp hms hbytes => ?_⟩
  · refine exec_frame_of_extractFrames (extractFrames_of_subsingleton fun m hm m' hm' => ?_)
    exact hone m m' ((mem_scanMarkers_iff hp).mp hm) ((mem_scanMarkers_iff hp).mp hm')
  · apply exec_frame_of_extractFrames
    conv in scanMarkers _ _ => rw [hbytes]
    exact extractFrames_markersOnly hp _ hms

/-! Framing completeness (R176) -/

/-- Bytes of a marker in a buffer make a marker, whose idle run may begin among the bytes before them. -/
theorem exists_isMarker_of_append {p : Params} {t : Byte} (ht : isTerminator p t = true)
    {bytes pre post : List Byte} {n : Nat}
    (hbytes : bytes = pre ++ List.replicate (n + 1) p.idleByte ++ [t] ++ post) :
    ∃ start ≤ pre.length, IsMarker p bytes ⟨start, pre.length + n + 2⟩ := by
  have hterm : bytes[pre.length + n + 1]? = some t := by
    simp [hbytes, Nat.add_assoc]
  have hidle (j : Nat) (hj : pre.length ≤ j) (hj' : j < pre.length + n + 1) :
      bytes[j]? = some p.idleByte := by
    rw [hbytes, List.append_assoc, List.append_assoc, List.getElem?_append_right hj,
      List.getElem?_append_left (by simp; omega)]
    exact List.getElem?_replicate_of_lt (by omega)
  obtain ⟨run, hrun⟩ := exists_idleRun p (List.getElem?_eq_some_iff.mp hterm).1.le
  cases run with
  | none =>
    obtain h | h := hrun
    · omega
    · exact absurd (hidle _ (by omega) (by omega)) h
  | some start =>
    exact ⟨start, start_le_of_idle hrun hidle, isMarker_iff.mpr ⟨hrun, t, hterm, ht⟩⟩

/-- When two markers are the only ones of a buffer, the scan is the list of the two. -/
theorem scanMarkers_eq_pair {p : Params} {bytes : List Byte} {m m' : Marker} (hp : p.Admissible)
    (hm : IsMarker p bytes m) (hm' : IsMarker p bytes m') (hlt : m.stop < m'.stop)
    (honly : ∀ a, IsMarker p bytes a → a.stop = m.stop ∨ a.stop = m'.stop) :
    scanMarkers p bytes = [m, m'] := by
  have : Std.Asymm (fun a b : Marker => a.stop < b.stop) := ⟨fun _ _ => Nat.lt_asymm⟩
  refine (pairwise_stop_scanMarkers p bytes).eq_of_mem_iff (by simpa using hlt) fun a => ?_
  rw [mem_scanMarkers_iff hp, List.mem_pair]
  constructor
  · intro ha
    exact (honly a ha).imp (isMarker_unique ha hm) (isMarker_unique ha hm')
  · rintro (rfl | rfl)
    · exact hm
    · exact hm'

/-- A gap of six to ten bytes after a marker, rounded up to ten, gives two frames. -/
theorem regionFrames_eq_pair {bytes : List Byte} {prev cur : Marker} {f1 f2 : Frame}
    (hlow : prev.stop + 5 < cur.start) (hhigh : cur.start ≤ prev.stop + 10)
    (hlen : prev.stop + 10 ≤ bytes.length) (h1 : f1.toList = (bytes.drop prev.stop).take 5)
    (h2 : f2.toList = (bytes.drop (prev.stop + 5)).take 5) :
    regionFrames bytes prev cur = [f1, f2] := by
  have halign : alignedStart prev cur = prev.stop + 10 := by
    rw [alignedStart_eq]
    omega
  have hf1 : (regionFrames bytes prev cur)[0]? = some f1 :=
    getElem?_regionFrames.mpr ⟨by omega, by omega, h1⟩
  have hf2 : (regionFrames bytes prev cur)[1]? = some f2 :=
    getElem?_regionFrames.mpr ⟨by omega, by omega, h2⟩
  have htwo : (regionFrames bytes prev cur).length = 2 := by
    rw [length_regionFrames (by omega)]
    omega
  obtain ⟨a, b, hab⟩ := List.length_eq_two.mp htwo
  rw [hab] at hf1 hf2 ⊢
  cases hf1
  cases hf2
  rfl

/-- Five equal bytes of a buffer, as a chunk. -/
theorem take_five_eq_replicate {bytes : List Byte} {x : Byte} {k : Nat}
    (h : ∀ j, k ≤ j → j < k + 5 → bytes[j]? = some x) :
    (bytes.drop k).take 5 = List.replicate 5 x := by
  refine List.ext_getElem? fun j => ?_
  rw [List.getElem?_take, List.getElem?_replicate, List.getElem?_drop]
  split
  next hj => exact h _ (by omega) (by omega)
  next => rfl

/-- Two frames between the end of a first marker and a second one come out exactly, when these are the
only markers: the second one's idle run may take bytes of the second frame, but not all five, so its start
rounds up to the frame's end. -/
theorem extractFrames_twoFrames {p : Params} {bytes pre : List Byte} {m : Marker} {n : Nat} {t : Byte}
    {f1 f2 : Frame} (hp : p.Admissible) (hm : IsMarker p bytes m) (hstop : m.stop = pre.length)
    (ht : isTerminator p t = true)
    (hbytes : bytes = pre ++ f1.toList ++ f2.toList ++ List.replicate (n + 1) p.idleByte ++ [t])
    (honly : ∀ a, IsMarker p bytes a → a.stop = m.stop ∨ a.stop = bytes.length)
    (hf2 : f2.toList ≠ List.replicate 5 p.idleByte) :
    extractFrames bytes (scanMarkers p bytes) = [f1, f2] := by
  have hf (f : Frame) : f.toList.length = 5 := rfl
  have hlen : bytes.length = m.stop + 10 + n + 2 := by
    simp only [hbytes, hstop, List.length_append, List.length_replicate, List.length_singleton, hf]
    omega
  have hchunk1 : f1.toList = (bytes.drop m.stop).take 5 := by
    simp [hbytes, hstop, hf]
  have hchunk2 : f2.toList = (bytes.drop (m.stop + 5)).take 5 := by
    simp [hbytes, hstop, hf]
  obtain ⟨start, hhigh, hm'⟩ := exists_isMarker_of_append (post := []) ht
    (hbytes.trans (List.append_nil _).symm)
  simp only [List.length_append, hf, ← hstop] at hhigh hm'
  rw [show m.stop + 5 + 5 + n + 2 = bytes.length by omega] at hm'
  have hlow : m.stop + 5 < start := by
    by_contra hle
    have hidle : ∀ j, start ≤ j → j + 1 < bytes.length → bytes[j]? = some p.idleByte := hm'.2.1
    exact hf2 (hchunk2.trans (take_five_eq_replicate fun j _ _ => hidle j (by omega) (by omega)))
  have hlt : m.stop < bytes.length := by omega
  rw [scanMarkers_eq_pair hp hm hm' hlt honly]
  exact (List.append_nil _).trans
    (regionFrames_eq_pair hlow hhigh (by omega) hchunk1 hchunk2)

/-- Settles O49: the first marker is the one at the buffer's beginning. -/
theorem framingCompleteness : Obligations.FramingCompleteness := by
  intro s n1 n2 t1 t2 f1 f2 hp ht1 ht2 hbytes honly hf2
  obtain ⟨start, -, hm⟩ := exists_isMarker_of_append (pre := []) (n := n1) ht1
    (post := f1.toList ++ (f2.toList ++ (List.replicate (n2 + 1) s.params.idleByte ++ [t2])))
    (hbytes.trans (by simp only [List.nil_append, List.append_assoc]))
  rw [List.length_nil, Nat.zero_add] at hm
  exact exec_frame_of_extractFrames (extractFrames_twoFrames hp hm (by simp) ht2 hbytes honly hf2)

end Sys2Proof.Machine
end

section
/-! PROOFS. The hit-frame parser: DECODE and READOUT (spec 44_decoder.md). -/

namespace Sys2Proof.Machine

/-! The record of one frame (R191 to R193) -/

/-- A mask of the low `k` bits, read as a field of `k` bits, is the remainder modulo `2 ^ k`. -/
theorem toNat_maskLow (b : Byte) (k : Nat) :
    ((b &&& BitVec.ofNat 8 (2 ^ k - 1)).extractLsb' 0 k).toNat = b.toNat % 2 ^ k := by
  have hmask : b.toNat &&& (2 ^ k - 1) % 2 ^ 8 = b.toNat &&& (2 ^ k - 1) := by
    rw [← Nat.and_two_pow_sub_one_eq_mod _ 8, ← Nat.and_assoc, Nat.and_right_comm,
      Nat.and_two_pow_sub_one_eq_mod _ 8, Nat.mod_eq_of_lt b.isLt]
  rw [BitVec.extractLsb'_toNat, Nat.shiftRight_zero, BitVec.toNat_and, BitVec.toNat_ofNat, hmask,
    Nat.and_two_pow_sub_one_eq_mod, Nat.mod_mod]

/-- `(tot_msb << 8) | tot_lsb` is a sum, because the two parts share no bit (R192). -/
theorem toNat_totTicksOf (msb : BitVec 4) (lsb : BitVec 8) :
    (totTicksOf msb lsb).toNat = msb.toNat * 256 + lsb.toNat := by
  have hmsb : msb.toNat <<< 8 < 2 ^ 12 := by rw [Nat.shiftLeft_eq]; omega
  rw [totTicksOf, BitVec.toNat_or, BitVec.toNat_shiftLeft, BitVec.toNat_setWidth_of_le (by decide),
    BitVec.toNat_setWidth_of_le (by decide), Nat.mod_eq_of_lt hmsb,
    ← Nat.shiftLeft_add_eq_or_of_lt lsb.isLt, Nat.shiftLeft_eq]

section Record

variable (f : Frame) (period : Nat)

theorem chipId_decodeFrame : (decodeFrame f period).chipId.toNat = f.b0.toNat / 8 := by
  have hlt : f.b0.toNat / 8 < 2 ^ 5 := by omega
  calc
    ((f.b0 >>> 3).extractLsb' 0 5).toNat = f.b0.toNat / 8 % 2 ^ 5 := by
      rw [BitVec.extractLsb'_toNat, Nat.shiftRight_zero, BitVec.toNat_ushiftRight,
        Nat.shiftRight_eq_div_pow]
    _ = f.b0.toNat / 8 := Nat.mod_eq_of_lt hlt

theorem payload_decodeFrame : (decodeFrame f period).payload.toNat = f.b0.toNat % 8 :=
  toNat_maskLow f.b0 3

theorem location_decodeFrame : (decodeFrame f period).location.toNat = f.b1.toNat % 64 :=
  toNat_maskLow f.b1 6

theorem isColumn_decodeFrame : (decodeFrame f period).isColumn = decide (128 ≤ f.b1.toNat) :=
  BitVec.msb_eq_decide f.b1

theorem totMsb_decodeFrame : (decodeFrame f period).totMsb.toNat = f.b3.toNat % 16 :=
  toNat_maskLow f.b3 4

theorem totTicks_decodeFrame : (decodeFrame f period).totTicks.toNat =
    (decodeFrame f period).totMsb.toNat * 256 + (decodeFrame f period).totLsb.toNat :=
  toNat_totTicksOf _ _

theorem totNs_decodeFrame :
    (decodeFrame f period).totNs = (decodeFrame f period).totTicks.toNat * period := rfl

theorem wf_decodeFrame : (decodeFrame f period).wf =
    decide ((decodeFrame f period).chipId = 0 ∧ (decodeFrame f period).payload = 4) :=
  (Bool.decide_and _ _).symm

/-- A chip id 0 and a payload 4 are the two parts of the byte `0x04` (R193). -/
theorem wf_decodeFrame_iff : (decodeFrame f period).wf = true ↔ f.b0 = 0x04#8 := by
  rw [wf_decodeFrame, decide_eq_true_iff, ← BitVec.toNat_inj, ← BitVec.toNat_inj,
    ← BitVec.toNat_inj, chipId_decodeFrame, payload_decodeFrame]
  change f.b0.toNat / 8 = 0 ∧ f.b0.toNat % 8 = 4 ↔ f.b0.toNat = 4
  omega

/-- Twelve bits hold at most 4095 ticks (R192). -/
theorem totTicks_le : (decodeFrame f period).totTicks.toNat ≤ 4095 :=
  Nat.le_of_lt_succ (decodeFrame f period).totTicks.isLt

/-- The largest time over threshold: 4095 ticks of a 16-bit period (R192). -/
theorem totNs_le (h : period < 2 ^ 16) : (decodeFrame f period).totNs ≤ 268365825 :=
  Nat.mul_le_mul (totTicks_le f period) (Nat.le_of_lt_succ h)

end Record

/-- Settles O52: the ticks fill twelve bits, and the time is their exact product with the period. -/
theorem totArithmetic : Obligations.TotArithmetic := fun f period =>
  ⟨totTicks_le f period, totTicks_decodeFrame f period, totNs_decodeFrame f period, rfl,
    totNs_le f period⟩

/-! DECODE (R194) -/

/-- What DECODE answers for a sequence of frames. -/
def decodeResponse (fs : List Frame) (period : Nat) : Response :=
  { Response.empty with records := decodeFrames fs period }

theorem length_records_decodeResponse (fs : List Frame) (period : Nat) :
    (decodeResponse fs period).records.length = fs.length :=
  List.length_map _

/-- The records stand in frame order. -/
theorem getElem?_records_decodeResponse {fs : List Frame} {j : Nat} {f : Frame} (period : Nat)
    (h : fs[j]? = some f) : (decodeResponse fs period).records[j]? = some (decodeFrame f period) := by
  rw [decodeResponse, decodeFrames, List.getElem?_map, h, Option.map_some]

/-- The next state after DECODE: no frame raises an error. -/
theorem exec_decode (s : State) {period : Nat} (h : period ≠ 0) :
    exec (.decode period) s =
      .next { s with status := 0#32, out := some (decodeResponse s.inp.frames period) } :=
  exec_of_effect_ok (effect_decode_ok s period h)

/-- Settles O51: the record of each frame, field by field. -/
theorem decodeRecordFields : Obligations.DecodeRecordFields := by
  intro s period hperiod
  refine ⟨_, exec_decode s hperiod, rfl, length_records_decodeResponse _ _, fun j f hf => ?_⟩
  have hticks : (decodeFrame f period).totTicks.toNat = f.b3.toNat % 16 * 256 + f.b4.toNat := by
    rw [totTicks_decodeFrame, totMsb_decodeFrame]
    rfl
  exact ⟨decodeFrame f period, getElem?_records_decodeResponse period hf, chipId_decodeFrame f period,
    payload_decodeFrame f period, location_decodeFrame f period, isColumn_decodeFrame f period, rfl,
    totMsb_decodeFrame f period, rfl, hticks, totNs_decodeFrame f period, rfl, wf_decodeFrame f period⟩

/-- Settles O53: DECODE does not look at the flag. -/
theorem wellFormedFlag : Obligations.WellFormedFlag :=
  ⟨wf_decodeFrame_iff, fun s period hperiod => ⟨_, _, exec_decode s hperiod, rfl, rfl,
    fun _ _ => getElem?_records_decodeResponse period⟩⟩

/-! READOUT (R195) -/

/-- The next state after READOUT: DECODE's answer for the frames that FRAME answers. -/
theorem exec_readout (s : State) {period : Nat} (v : Bool) (h : period ≠ 0) :
    exec (.readout period v) s = .next { s with
      status := 0#32
      out := some (decodeResponse
        (frameResponse s.params (bitCorrect v s.inp.bytes)).frames period) } := by
  rw [exec_of_effect_ok (effect_readout_ok s period v h), framesOf, collapse_scanMarkers]
  rfl

/-- Settles O55: the frames go from FRAME's answer to DECODE's input ports. -/
theorem readoutIsFrameThenDecode : Obligations.ReadoutIsFrameThenDecode := fun s _ v hperiod =>
  ⟨_, _, exec_frame s v, exec_decode _ hperiod, exec_readout s v hperiod, rfl⟩

end Sys2Proof.Machine
end

section
/-! PROOFS. Errors: error entry, the order in which errors are reported, and the errors of a zero divider and a
zero period (spec 60_exceptions.md). -/

namespace Sys2Proof.Machine

/-! Error entry (R212) -/

theorem statusGrp_error (e : Err) :
    statusGrp e.status = (match e with | .overflow g _ => g.code | _ => 0) :=
  (congrArg statusGrp (status_error e)).trans (statusGrp_statusWord _ _ _)

theorem statusIdx_error (e : Err) :
    statusIdx e.status = (match e with | .overflow _ i => BitVec.ofNat 8 i | _ => 0) :=
  (congrArg statusIdx (status_error e)).trans (statusIdx_statusWord _ _ _)

theorem statusReserved_error (e : Err) :
    e.status.extractLsb' 6 2 = 0 ∧ e.status.extractLsb' 16 16 = 0 := by
  rw [status_error]
  exact statusReserved_statusWord _ _ _

/-- A command that ends with an error code has raised an error: one that completes has code 0. -/
theorem exec_eq_raise_of_statusCode_ne_zero {i : Instr} {s t : State} (h : exec i s = .next t)
    (hcode : statusCode t.status ≠ 0) : ∃ e : Err, t = s.raise e := by
  obtain ⟨cfg, r, -, hdone⟩ | ⟨e, -, hraise⟩ := exec_cases i s
  · rw [hdone] at h
    cases h
    exact absurd (statusCode_statusWord 0 0 0) hcode
  · rw [hraise] at h
    cases h
    exact ⟨e, rfl⟩

/-- Settles O16: STATUS is read field by field, and a command that does not complete is error entry. -/
theorem errorsArePrecise : Obligations.ErrorsArePrecise := by
  refine ⟨fun s e => ?_, fun i s t => exec_eq_raise_of_statusCode_ne_zero⟩
  obtain ⟨hlow, hhigh⟩ := statusReserved_error e
  exact ⟨statusCode_error e, statusGrp_error e, statusIdx_error e, hlow, hhigh, rfl⟩

/-! STATUS after a part of a command (R211) -/

/-- The value of STATUS that a computation leads to: 0 where it answers, else that of its error. -/
def resultStatus {α : Type} : Except Err α → Word
  | .ok _ => 0#32
  | .error e => e.status

theorem status_complete (s : State) (res : Except Err (Store × Response)) :
    (s.complete res).status = resultStatus res := by
  rcases res with e | ⟨cfg, r⟩
  · rfl
  · exact statusOk_eq

/-- What is made of the answer of a computation raises no error of its own. -/
theorem resultStatus_bind_pure {α β : Type} (x : Except Err α) (f : α → β) :
    resultStatus (do let a ← x; pure (f a)) = resultStatus x := by
  cases x <;> rfl

/-- A check leads to the error it names exactly where its condition fails. -/
theorem resultStatus_ite (p : Prop) [Decidable p] (e : Err) :
    resultStatus (if p then .ok () else .error e) = if p then 0#32 else e.status := by
  split <;> rfl

theorem resultStatus_checkField (p : Params) (g : Group) (i : Nat) :
    resultStatus (checkField p g i) = if i < p.count g then 0#32 else 0x3#32 := by
  rw [checkField, resultStatus_ite, status_index]
  simp only [fieldExists, decide_eq_true_eq]

theorem resultStatus_checkPixel (p : Params) (c r : Nat) :
    resultStatus (checkPixel p c r) = if c < p.nCol ∧ r < p.nRows then 0#32 else 0x3#32 := by
  rw [checkPixel, resultStatus_ite, status_index]
  simp only [pixelExists, Bool.and_eq_true, decide_eq_true_eq]

/-- STATUS after `E_CLKDIV`: code 2, with the group and the index 0 (R211). -/
theorem status_clkDiv : Err.status .clkDiv = 0x2#32 := by decide

/-- STATUS after `E_PERIOD`: code 5, with the group and the index 0 (R211). -/
theorem status_period : Err.status .period = 0x5#32 := by decide

/-- The divider is checked before what follows: a zero divider hides every other error (R213). -/
theorem resultStatus_checkDivider_bind {α : Type} (k : Nat) (x : Except Err α) :
    resultStatus (do checkDivider k; x) = if k = 0 then 0x2#32 else resultStatus x := by
  rw [checkDivider]
  split
  · exact status_clkDiv
  · rfl

theorem resultStatus_checkPeriod (period : Nat) :
    resultStatus (checkPeriod period) = if period = 0 then 0x5#32 else 0#32 := by
  rw [checkPeriod]
  split
  · exact status_period
  · rfl

/-- Serialization leads to the first overflow of the store, whatever `M` (R122). -/
theorem resultStatus_serialize (cfg : Store) (m : Bool) :
    resultStatus (serialize cfg m) =
      (match firstOverflow cfg with | some f => (Err.overflow f.1 f.2).status | none => 0#32) := by
  rw [serialize]
  cases firstOverflow cfg <;> rfl

/-- A command that serializes the store has no error but the first overflow. -/
theorem resultStatus_serialize_bind {β : Type} (cfg : Store) (m : Bool) (answer : List Bool → β) :
    resultStatus (do let bits ← serialize cfg m; pure (answer bits)) =
      (match firstOverflow cfg with | some f => (Err.overflow f.1 f.2).status | none => 0#32) :=
  (resultStatus_bind_pure _ answer).trans (resultStatus_serialize cfg m)

/-! The order of errors (R213) -/

/-- Settles O17: an illegal word runs no command, and the errors of a command are those of its checks, in the
order in which it makes them. -/
theorem errorPriority : Obligations.ErrorPriority := by
  intro s t inp rest hhost hstep
  match hdec : decode inp.word with
  | .error e =>
    rw [step_command_illegal s inp rest e hhost hdec] at hstep
    cases hstep
    exact status_illegal
  | .ok i =>
    rw [step_command_ok s inp rest i hhost hdec, exec_eq_complete] at hstep
    cases hstep
    rw [status_complete]
    cases i with
    | nop | frame => rfl
    | fieldWr | fieldRd => exact (resultStatus_bind_pure _ _).trans (resultStatus_checkField _ _ _)
    | pixelEn => exact (resultStatus_bind_pure _ _).trans (resultStatus_checkPixel _ _ _)
    | build => exact resultStatus_serialize_bind _ _ _
    | waveWr | waveRb => exact resultStatus_checkDivider_bind _ _
    | configWr | configRb =>
      exact (resultStatus_checkDivider_bind _ _).trans
        (congrArg (ite _ _) (resultStatus_serialize_bind _ _ _))
    | decode | readout => exact (resultStatus_bind_pure _ _).trans (resultStatus_checkPeriod _)

/-! Waiting, and the command after an error (R214) -/

/-- Settles O7: with no event to take, the fetch settles in the state itself. -/
theorem waitsWithoutCommand : Obligations.WaitsWithoutCommand := step_idle

/-- Completing a command overwrites STATUS and the response, whatever they were. -/
theorem complete_with_status_out (s : State) (st : Word) (o : Option Response)
    (res : Except Err (Store × Response)) :
    State.complete { s with status := st, out := o } res = s.complete res := by
  rcases res with e | ⟨cfg, r⟩ <;> rfl

/-- Settles O18: the effect does not look at STATUS and the response, and completing overwrites them. -/
theorem noCommandReadsStatus : Obligations.NoCommandReadsStatus := by
  intro i s st o
  have heff : effectOf i { s with status := st, out := o } = effectOf i s := effectOf_congr i rfl rfl rfl
  rw [exec_eq_complete, exec_eq_complete, heff, complete_with_status_out]

/-! Zero operands (R211) -/

/-- The next state of a command that raises an error: STATUS and the response alone are new (R212). -/
theorem exec_of_effect_error_status {i : Instr} {s : State} {e : Err} {w : Word}
    (h : effectOf i s = .error e) (hw : e.status = w) :
    exec i s = .next { s with status := w, out := some { Response.empty with status := w } } := by
  subst hw
  exact exec_of_effect_error h

/-- The waveform commands check the divider first, before any bit of the store (R213). -/
theorem effect_clkDiv {s : State} {l m : Bool} {i : Instr}
    (hi : i ∈ [Instr.waveWr 0 l, .waveRb 0, .configWr 0 l m, .configRb 0 m]) :
    effectOf i s = .error .clkDiv := by
  simp only [List.mem_cons, List.not_mem_nil, or_false] at hi
  obtain rfl | rfl | rfl | rfl := hi <;> rfl

theorem effect_period {s : State} {v : Bool} {i : Instr} (hi : i ∈ [Instr.decode 0, .readout 0 v]) :
    effectOf i s = .error .period := by
  simp only [List.mem_cons, List.not_mem_nil, or_false] at hi
  obtain rfl | rfl := hi <;> rfl

/-- Settles O37: each of the four fails its check of the divider. -/
theorem zeroDividerRaises : Obligations.ZeroDividerRaises :=
  fun _ _ _ _ hi => exec_of_effect_error_status (effect_clkDiv hi) status_clkDiv

/-- Settles O54: both fail their check of the period. -/
theorem zeroPeriodRaises : Obligations.ZeroPeriodRaises :=
  fun _ _ _ hi => exec_of_effect_error_status (effect_period hi) status_period

end Sys2Proof.Machine
end

section
/-! PROOFS. Reset, and what the host must not do during a command (spec 70_reset_and_hazards.md). -/

namespace Sys2Proof.Machine

/-! Reset (R240) -/

/-- Settles O8: the step leaves the block as it is right after reset, and its store is the default one. -/
theorem resetRestoresDefaults : Obligations.ResetRestoresDefaults := by
  intro s rest hhost
  refine ⟨State.afterReset s.params rest, step_reset s rest hhost, afterReset_params rest s.params,
    afterReset_host rest s.params, afterReset_status rest s.params, ?_⟩
  intro g i _
  rw [afterReset_cfg]

/-- Settles O9: the fetch refuses the event (I14). -/
theorem resetDuringCommandRefused : Obligations.ResetDuringCommandRefused := step_resetDuringCommand

/-! One command at a time (R244) -/

/-- Settles O10: the fetch refuses the event before it reads the word. -/
theorem earlyCommandRefused : Obligations.EarlyCommandRefused := step_commandEarly

end Sys2Proof.Machine
end

section
/-! PROOFS. The encoder and the decoder undo each other (spec 30_encoding.md R70 to R81): the fields read
back from an encoded word give the operands, and the fields of an accepted word give the word. -/

namespace Sys2Proof

/-! The operands read back from an encoded word (R72 to R78) -/

/-- A field that holds a number small enough for it reads as that number. -/
theorem wordBits_of_extract {w : Word} {n hi lo v : Nat} (hv : v < 2 ^ n) (hn : hi + 1 - lo = n)
    (h : w.extractLsb' lo n = BitVec.ofNat n v) : wordBits w hi lo = v := by
  subst hn
  rw [wordBits_eq_extract, h, BitVec.toNat_ofNat, Nat.mod_eq_of_lt hv]

theorem group_encodeF (op : BitVec 4) (g : Group) (i : Nat) :
    Group.ofNum (wordBits (encodeF op g i) 5 4) = g := by
  rw [wordBits_of_extract g.num_lt rfl (encodeF_grp op g i), Group.ofNum_num]

theorem idx_encodeF (op : BitVec 4) (g : Group) {i : Nat} (hi : Fits8 i) :
    wordBits (encodeF op g i) 15 8 = i :=
  wordBits_of_extract hi rfl (encodeF_idx op g i)

theorem col_encodeP (op : BitVec 4) {c : Nat} (r : Nat) (hc : Fits8 c) :
    wordBits (encodeP op c r) 15 8 = c :=
  wordBits_of_extract hc rfl (encodeP_col op c r)

theorem row_encodeP (op : BitVec 4) (c : Nat) {r : Nat} (hr : Fits8 r) :
    wordBits (encodeP op c r) 23 16 = r :=
  wordBits_of_extract hr rfl (encodeP_row op c r)

theorem operand_encodeWide (op : BitVec 4) {n : Nat} (f5 f4 : Bool) (hn : Fits16 n) :
    wordBits (encodeWide op n f5 f4) 31 16 = n :=
  wordBits_of_extract hn rfl (encodeWide_operand op n f5 f4)

theorem wordFlag_encodeFlag (op : BitVec 4) (f : Bool) : wordFlag (encodeFlag op f) 4 = f :=
  encodeFlag_flag op f

theorem wordFlag5_encodeWide (op : BitVec 4) (n : Nat) (f5 f4 : Bool) :
    wordFlag (encodeWide op n f5 f4) 5 = f5 :=
  encodeWide_flag5 op n f5 f4

theorem wordFlag4_encodeWide (op : BitVec 4) (n : Nat) (f5 f4 : Bool) :
    wordFlag (encodeWide op n f5 f4) 4 = f4 :=
  encodeWide_flag4 op n f5 f4

/-! Decoding an encoded command -/

/-- The decoder's answer for a word that meets the row of opcode `k`. -/
theorem decode_of_row (k : Nat) {r : OpRow} {w : Word} {i : Instr} (hrow : opcodeMap[k]? = some r)
    (hmask : w &&& r.mask = r.pattern) (hops : r.operands w = i) : decode w = .ok i := by
  rw [decode_of_accepts r w (List.mem_of_getElem? hrow) ((r.accepts_iff w).mpr hmask), hops]

/-- Settles O1, by the commands: the word meets the row of its opcode, and each operand is read back from
its field. -/
theorem decodeOfEncode : Obligations.DecodeOfEncode := by
  intro i hwf
  cases i with
  | nop => exact decode_of_row 0x0 rfl (by decide) rfl
  | fieldWr g i => exact decode_encode_fieldWr g (of_decide_eq_true hwf)
  | fieldRd g i =>
    refine decode_of_row 0x2 rfl (encodeF_mask 0x2#4 g i) (congrArg₂ Instr.fieldRd ?_ ?_)
    · exact group_encodeF _ g i
    · exact idx_encodeF _ g (of_decide_eq_true hwf)
  | pixelEn c r =>
    obtain ⟨hc, hr⟩ : Fits8 c ∧ Fits8 r := by simpa [Instr.WellFormed, Instr.wellFormed] using hwf
    exact decode_of_row 0x3 rfl (encodeP_mask 0x3#4 c r)
      (congrArg₂ Instr.pixelEn (col_encodeP _ r hc) (row_encodeP _ c hr))
  | build m =>
    exact decode_of_row 0x4 rfl (encodeFlag_mask 0x4#4 m) (congrArg Instr.build (wordFlag_encodeFlag _ m))
  | waveWr k l =>
    obtain ⟨-, hmask, -, -⟩ := encodeWide_mask 0x5#4 k l false
    refine decode_of_row 0x5 rfl hmask (congrArg₂ Instr.waveWr ?_ ?_)
    · exact operand_encodeWide _ l false (of_decide_eq_true hwf)
    · exact wordFlag5_encodeWide _ k l false
  | waveRb k =>
    obtain ⟨-, -, -, hmask⟩ := encodeWide_mask 0x6#4 k false false
    exact decode_of_row 0x6 rfl hmask
      (congrArg Instr.waveRb (operand_encodeWide _ false false (of_decide_eq_true hwf)))
  | configWr k l m =>
    obtain ⟨hmask, -, -, -⟩ := encodeWide_mask 0x7#4 k l m
    refine decode_of_row 0x7 rfl hmask (congr (congrArg₂ Instr.configWr ?_ ?_) ?_)
    · exact operand_encodeWide _ l m (of_decide_eq_true hwf)
    · exact wordFlag5_encodeWide _ k l m
    · exact wordFlag4_encodeWide _ k l m
  | configRb k m =>
    obtain ⟨-, -, hmask, -⟩ := encodeWide_mask 0x8#4 k false m
    refine decode_of_row 0x8 rfl hmask (congrArg₂ Instr.configRb ?_ ?_)
    · exact operand_encodeWide _ false m (of_decide_eq_true hwf)
    · exact wordFlag4_encodeWide _ k false m
  | frame v =>
    exact decode_of_row 0x9 rfl (encodeFlag_mask 0x9#4 v) (congrArg Instr.frame (wordFlag_encodeFlag _ v))
  | decode period =>
    obtain ⟨-, -, -, hmask⟩ := encodeWide_mask 0xA#4 period false false
    exact decode_of_row 0xA rfl hmask
      (congrArg Instr.decode (operand_encodeWide _ false false (of_decide_eq_true hwf)))
  | readout period v =>
    obtain ⟨-, -, hmask, -⟩ := encodeWide_mask 0xB#4 period false v
    refine decode_of_row 0xB rfl hmask (congrArg₂ Instr.readout ?_ ?_)
    · exact operand_encodeWide _ false v (of_decide_eq_true hwf)
    · exact wordFlag4_encodeWide _ period false v

/-! Encoding a decoded word -/

/-- The operands of a row fit their fields, whatever the word. -/
theorem wellFormed_operands {r : OpRow} (hr : r ∈ opcodeMap) (w : Word) : (r.operands w).WellFormed := by
  have hidx : Fits8 (wordBits w 15 8) := wordBits_lt w 15 8
  have hrow : Fits8 (wordBits w 23 16) := wordBits_lt w 23 16
  have hwide : Fits16 (wordBits w 31 16) := wordBits_lt w 31 16
  simp only [opcodeMap, List.mem_cons, List.not_mem_nil, or_false] at hr
  rcases hr with rfl | rfl | rfl | rfl | rfl | rfl | rfl | rfl | rfl | rfl | rfl | rfl <;>
    simp only [Instr.WellFormed, Instr.wellFormed, hidx, hrow, hwide, decide_true, Bool.and_self]

/-- A word of format W or D whose mask `m` covers the flags its command does not have is put together
again with those flags 0. -/
theorem encodeWide_of_covering_mask {op : BitVec 4} {w m : Word} {f5 f4 : Bool}
    (h : w &&& m = op.setWidth 32) (hm : m &&& 0x0000FFCF#32 = 0x0000FFCF#32)
    (h5 : f5 = wordFlag w 5 ∨ f5 = false ∧ m.getLsbD 5 = true)
    (h4 : f4 = wordFlag w 4 ∨ f4 = false ∧ m.getLsbD 4 = true) :
    encodeWide op (wordBits w 31 16) f5 f4 = w := by
  have hflag : ∀ {k : Nat} {f : Bool}, 4 ≤ k →
      f = wordFlag w k ∨ f = false ∧ m.getLsbD k = true → w.getLsbD k = f := by
    rintro k f hk (rfl | ⟨rfl, hmk⟩)
    · rfl
    · exact flag_of_mask op w m k h hmk hk
  have hop : ∀ op : BitVec 4, op.setWidth 32 &&& 0x0000FFCF#32 = op.setWidth 32 := by decide
  exact encodeWide_of_mask op w f5 f4 (hflag (by decide) h5) (hflag (by decide) h4)
    (mask_of_mask op w m _ h hm (hop op))

/-- The command a row makes of a word it accepts has that word as its encoding: the mask leaves no bit of
the word outside the fields. -/
theorem encode_operands {r : OpRow} (hr : r ∈ opcodeMap) {w : Word} (h : w &&& r.mask = r.pattern) :
    encode (r.operands w) = w := by
  simp only [opcodeMap, List.mem_cons, List.not_mem_nil, or_false] at hr
  obtain rfl | rfl | rfl | rfl | rfl | rfl | rfl | rfl | rfl | rfl | rfl | rfl := hr
  · exact h.symm.trans (BitVec.and_allOnes (x := w))
  · exact encodeF_of_mask 0x1#4 w h
  · exact encodeF_of_mask 0x2#4 w h
  · exact encodeP_of_mask 0x3#4 w h
  · exact encodeFlag_of_mask 0x4#4 w h
  · exact encodeWide_of_covering_mask (op := 0x5#4) h (by decide) (.inl rfl) (.inr ⟨rfl, rfl⟩)
  · exact encodeWide_of_covering_mask (op := 0x6#4) h (by decide) (.inr ⟨rfl, rfl⟩) (.inr ⟨rfl, rfl⟩)
  · exact encodeWide_of_covering_mask (op := 0x7#4) h (by decide) (.inl rfl) (.inl rfl)
  · exact encodeWide_of_covering_mask (op := 0x8#4) h (by decide) (.inr ⟨rfl, rfl⟩) (.inl rfl)
  · exact encodeFlag_of_mask 0x9#4 w h
  · exact encodeWide_of_covering_mask (op := 0xA#4) h (by decide) (.inr ⟨rfl, rfl⟩) (.inr ⟨rfl, rfl⟩)
  · exact encodeWide_of_covering_mask (op := 0xB#4) h (by decide) (.inr ⟨rfl, rfl⟩) (.inl rfl)

/-- Settles O2: the word is accepted by the row of the command it decodes to. -/
theorem encodeOfDecode : Obligations.EncodeOfDecode := by
  intro w i hdec
  obtain ⟨r, hr, hacc, rfl⟩ := accepts_of_decode w i hdec
  exact ⟨wellFormed_operands hr w, encode_operands hr ((r.accepts_iff w).mp hacc)⟩

/-! Words of the opcode table -/

/-- A word of the table that is the encoding of a well-formed command is read as that command. -/
theorem decodeTableWord_of_encode {nbits w : Nat} {i : Instr} (hwf : i.WellFormed)
    (hw : tableWord nbits w = encode i) : decodeTableWord nbits w = some i := by
  rw [decodeTableWord, hw, decodeOfEncode i hwf]

theorem decodeTableWord_of_error {nbits w : Nat} (h : ∃ e, decode (tableWord nbits w) = .error e) :
    decodeTableWord nbits w = none := by
  obtain ⟨e, he⟩ := h
  rw [decodeTableWord, he]

/-- Settles O5: the encoder gives each word that has a command; the last two have the opcode `0xC` and a 1
in bit 5 under WAVE_RB. -/
theorem specWordsDecode : Obligations.SpecWordsDecode := by
  refine ⟨?_, ?_, ?_, ?_, ?_, ?_, ?_, ?_, ?_, ?_, ?_, ?_, ?_, ?_⟩
  case refine_13 =>
    exact decodeTableWord_of_error ((decode_error_iff_reserved _).mpr (.inl (by decide)))
  case refine_14 =>
    exact decodeTableWord_of_error ((decode_error_iff_reserved _).mpr
      (.inr ⟨_, List.mem_of_getElem? (i := 0x6) rfl, by decide, 5, by decide, by decide, by decide⟩))
  all_goals exact decodeTableWord_of_encode rfl (by decide)

end Sys2Proof
end
